-- ==== Sys2Proof/Word.lean ====
section
/-! DEFINITION. The widths of the machine's words (spec 10_state.md, 30_encoding.md R72, R73). Every value is
unsigned (00_scope.md R7). -/

namespace Sys2Proof

/-- An 8-bit memory cell or general register (R20, R50). -/
abbrev Byte := BitVec 8

/-- A 16-bit instruction word, program counter or return address (R22, R24, R70). -/
abbrev Word := BitVec 16

/-- A 12-bit address: the index register and the immediate `nnn` (R23, R73). -/
abbrev Addr := BitVec 12

/-- A 4-bit field of an instruction word (R72). -/
abbrev Nibble := BitVec 4

/-- A framebuffer row: 64 pixels, column 0 in bit 63 (R30). -/
abbrev PixelRow := BitVec 64

/-- The index of one of the sixteen general registers V0..VF (R20). -/
abbrev Reg := Fin 16

/-- The register that doubles as the flag output (R21). -/
abbrev VF : Reg := 15

end Sys2Proof
end

