-- ==== Sys2Proof/Config.lean ====
section
/-! DEFINITION. What is fixed when the block is constructed (00_scope.md R6, 70_reset_and_hazards.md R290), and the
free values the spec leaves open: `WRAP_X`, `WRAP_Y` and the random byte. -/

namespace Sys2Proof

/-- The five bytes of one hexadecimal digit's image, top row first (R35). -/
abbrev Glyph := Vector Byte 5

/-- The construction parameters of R6 and R270. They never change afterwards (R31, R39). -/
structure Config where
  /-- `WRAP_X`: sprites crossing the right edge reappear on the left (R31, R193). -/
  wrapX : Bool
  /-- `WRAP_Y`: sprites crossing the bottom edge reappear at the top (R31, R194). -/
  wrapY : Bool
  /-- `PERSIST`: the framebuffer read combines with the retained snapshot (R32, R275). -/
  persist : Bool
  /-- `FONT_BASE`: where the 80 font bytes lie (R35). -/
  fontBase : Addr
  /-- `FONT_GLYPHS`: the sixteen glyphs, digit 0 first (R37). -/
  fontGlyphs : Vector Glyph 16
  deriving DecidableEq, Repr

namespace Config

/-- The number of font bytes: "16 characters × 5 bytes" (R35). -/
abbrev fontBytes : Nat := 80

/-- The constraint R6 puts on the parameters: the font lies inside 0x000..0x1FF. -/
abbrev ok (c : Config) : Prop := c.fontBase.toNat + fontBytes ≤ 0x200

/-- The glyph bytes of digits 0 to 7 (R37). PRESUMED by the spec itself: "from general knowledge" (log entry 5). -/
def glyphsLow : Vector Glyph 8 := #v[
  #v[0xF0, 0x90, 0x90, 0x90, 0xF0],
  #v[0x20, 0x60, 0x20, 0x20, 0x70],
  #v[0xF0, 0x10, 0xF0, 0x80, 0xF0],
  #v[0xF0, 0x10, 0xF0, 0x10, 0xF0],
  #v[0x90, 0x90, 0xF0, 0x10, 0x10],
  #v[0xF0, 0x80, 0xF0, 0x10, 0xF0],
  #v[0xF0, 0x80, 0xF0, 0x90, 0xF0],
  #v[0xF0, 0x10, 0x20, 0x40, 0x40]]

/-- The glyph bytes of digits 8 to F (R37, log entry 5). -/
def glyphsHigh : Vector Glyph 8 := #v[
  #v[0xF0, 0x90, 0xF0, 0x90, 0xF0],
  #v[0xF0, 0x90, 0xF0, 0x10, 0xF0],
  #v[0xF0, 0x90, 0xF0, 0x90, 0x90],
  #v[0xE0, 0x90, 0xE0, 0x90, 0xE0],
  #v[0xF0, 0x80, 0x80, 0x80, 0xF0],
  #v[0xE0, 0x90, 0x90, 0x90, 0xE0],
  #v[0xF0, 0x80, 0xF0, 0x80, 0xF0],
  #v[0xF0, 0x80, 0xF0, 0x80, 0x80]]

/-- `WRAP_X` as the block was built. The spec leaves it OPEN (decision D20), so it is a free value: no proof can see
it (log entry 2). -/
opaque openWrapX : Bool

/-- `WRAP_Y` as the block was built: OPEN, a free value like `openWrapX` (decision D20, log entry 2). -/
opaque openWrapY : Bool

/-- The byte that the environment supplies to the `k`-th execution of `random` through `step`: a free input under no law
(R38, R86, R142, decision D21, log entry 3). Nothing constrains one draw by another. -/
opaque drawByte : Nat → Byte

/-- The parameters with the values R6 decides; the two wrap flags stay open. -/
def decided : Config where
  wrapX := openWrapX
  wrapY := openWrapY
  persist := false
  fontBase := 0x000
  fontGlyphs := glyphsLow ++ glyphsHigh

end Config

/-- The lowest address past the memory's end: `MEM_SIZE` (R6, R50). -/
abbrev memSize : Nat := 4096

/-- `PROGRAM_BASE`: the program load origin and the reset program counter (R6, R57). -/
abbrev programBase : Nat := 0x200

/-- `PROGRAM_MAX`: the longest program image (R6, R271). -/
abbrev programMax : Nat := 3584

/-- `JUMP_BASE`: what `jump nnn` and `call nnn` add to their field (R6, R102, R103). -/
abbrev jumpBase : Word := 0x200

end Sys2Proof
end

