-- ==== Sys2Proof/Syntax.lean ====
section
/-! DEFINITION. The instructions, in the order of the opcode table (30_encoding.md R76): one constructor per row. -/

namespace Sys2Proof

/-- The 34 instructions of R76. `x` and `y` name general registers, `kk` is an 8-bit immediate, `nnn` a 12-bit
address immediate and `n` the sprite height in bytes (R73). The height is a count, a plain number; that it fits the
field is `Instr.wellFormed`. -/
inductive Instr where
  /-- `00E0` clear-screen (R191) -/
  | clearScreen
  /-- `00EE` return (R101) -/
  | ret
  /-- `1nnn` jump nnn (R102) -/
  | jump (nnn : Addr)
  /-- `2nnn` call nnn (R103) -/
  | call (nnn : Addr)
  /-- `3xkk` skip-eq Vx,kk (R104) -/
  | skipEqImm (x : Reg) (kk : Byte)
  /-- `4xkk` skip-ne Vx,kk (R105) -/
  | skipNeImm (x : Reg) (kk : Byte)
  /-- `5xy0` skip-eq Vx,Vy (R106) -/
  | skipEqReg (x y : Reg)
  /-- `9xy0` skip-ne Vx,Vy (R107) -/
  | skipNeReg (x y : Reg)
  /-- `6xkk` load Vx,kk (R131) -/
  | loadImm (x : Reg) (kk : Byte)
  /-- `7xkk` add Vx,kk (R132) -/
  | addImm (x : Reg) (kk : Byte)
  /-- `8xy0` load Vx,Vy (R133) -/
  | loadReg (x y : Reg)
  /-- `8xy1` or Vx,Vy (R134) -/
  | orReg (x y : Reg)
  /-- `8xy2` and Vx,Vy (R135) -/
  | andReg (x y : Reg)
  /-- `8xy3` xor Vx,Vy (R136) -/
  | xorReg (x y : Reg)
  /-- `8xy4` add Vx,Vy (R137) -/
  | addReg (x y : Reg)
  /-- `8xy5` sub Vx,Vy (R138) -/
  | subReg (x y : Reg)
  /-- `8xy6` shr Vx,Vy (R139) -/
  | shrReg (x y : Reg)
  /-- `8xy7` subn Vx,Vy (R140) -/
  | subnReg (x y : Reg)
  /-- `8xyE` shl Vx,Vy (R141) -/
  | shlReg (x y : Reg)
  /-- `Annn` load I,nnn (R161) -/
  | loadIndex (nnn : Addr)
  /-- `Bnnn` jump V0,nnn (R108) -/
  | jumpV0 (nnn : Addr)
  /-- `Cxkk` random Vx,kk (R142) -/
  | random (x : Reg) (kk : Byte)
  /-- `Dxyn` draw Vx,Vy,n (R192) -/
  | draw (x y : Reg) (n : Nat)
  /-- `Ex9E` skip-if-pressed Vx (R221) -/
  | skipIfPressed (x : Reg)
  /-- `ExA1` skip-if-not-pressed Vx (R222) -/
  | skipIfNotPressed (x : Reg)
  /-- `Fx07` load Vx,delay-timer (R223) -/
  | readDelay (x : Reg)
  /-- `Fx0A` load Vx,key (R224) -/
  | waitKey (x : Reg)
  /-- `Fx15` load delay-timer,Vx (R225) -/
  | setDelay (x : Reg)
  /-- `Fx18` load sound-timer,Vx (R226) -/
  | setSound (x : Reg)
  /-- `Fx1E` add I,Vx (R162) -/
  | addIndex (x : Reg)
  /-- `Fx29` load I,font(Vx) (R163) -/
  | loadFont (x : Reg)
  /-- `Fx33` store-BCD Vx (R164) -/
  | storeBcd (x : Reg)
  /-- `Fx55` store-regs Vx (R165) -/
  | storeRegs (x : Reg)
  /-- `Fx65` load-regs Vx (R166) -/
  | loadRegs (x : Reg)
  deriving DecidableEq, Repr

end Sys2Proof
end

