-- ==== Sys2Proof/WellFormed.lean ====
section
/-! DEFINITION. Which instruction terms stand for an instruction word. The operand types already bound every field
but one: the sprite height of `draw`, a plain number, must fit its 4-bit field (30_encoding.md R73). -/

namespace Sys2Proof

/-- The largest sprite height: `n` is a 4-bit field, 0..15 (R73, R192). -/
abbrev maxSpriteRows : Nat := 15

/-- The instruction can be encoded: `n` is at most 15 in `draw`; every other operand's type is exactly its field. -/
def Instr.wellFormed : Instr → Bool
  | .draw _ _ n => n ≤ maxSpriteRows
  | .clearScreen | .ret | .jump _ | .call _ => true
  | .skipEqImm _ _ | .skipNeImm _ _ | .skipEqReg _ _ | .skipNeReg _ _ => true
  | .loadImm _ _ | .addImm _ _ | .loadReg _ _ | .orReg _ _ | .andReg _ _ | .xorReg _ _ => true
  | .addReg _ _ | .subReg _ _ | .shrReg _ _ | .subnReg _ _ | .shlReg _ _ => true
  | .loadIndex _ | .jumpV0 _ | .random _ _ => true
  | .skipIfPressed _ | .skipIfNotPressed _ | .readDelay _ | .waitKey _ | .setDelay _ | .setSound _ => true
  | .addIndex _ | .loadFont _ | .storeBcd _ | .storeRegs _ | .loadRegs _ => true

end Sys2Proof
end

