-- ==== Sys2Proof/Decode.lean ====
section
/-! DEFINITION. Decoding a word, total and strict (30_encoding.md R70 to R80), and after it the encoder, both from the
opcode map of R76. The bit patterns other than `00E0` are the spec's own decision D8 (log entry 4). -/

namespace Sys2Proof

/-! ## Fields (R72, R73) -/

/-- Nibble `a`: bits 15:12, the most significant (R72). -/
def nibbleA (w : Word) : Nibble := w.extractLsb' 12 4
/-- Nibble `b`: bits 11:8 (R72). -/
def nibbleB (w : Word) : Nibble := w.extractLsb' 8 4
/-- Nibble `c`: bits 7:4 (R72). -/
def nibbleC (w : Word) : Nibble := w.extractLsb' 4 4
/-- Nibble `d`: bits 3:0 (R72). -/
def nibbleD (w : Word) : Nibble := w.extractLsb' 0 4

/-- A nibble read as a register index (R73, R75). -/
def regOfNibble (b : Nibble) : Reg := ⟨b.toNat, b.isLt⟩

/-! ## Decode (R77) -/

/-- The rows `8xy_` of R76, told apart by the function nibble. -/
def decodeAlu (x y : Reg) (d : Nibble) : Option Instr :=
  match d.toNat with
  | 0x0 => some (.loadReg x y)
  | 0x1 => some (.orReg x y)
  | 0x2 => some (.andReg x y)
  | 0x3 => some (.xorReg x y)
  | 0x4 => some (.addReg x y)
  | 0x5 => some (.subReg x y)
  | 0x6 => some (.shrReg x y)
  | 0x7 => some (.subnReg x y)
  | 0xE => some (.shlReg x y)
  | _ => none

/-- The rows `Ex__` of R76, told apart by the function byte. -/
def decodeKeySkip (x : Reg) (kk : Byte) : Option Instr :=
  match kk.toNat with
  | 0x9E => some (.skipIfPressed x)
  | 0xA1 => some (.skipIfNotPressed x)
  | _ => none

/-- The rows `Fx__` of R76, told apart by the function byte. -/
def decodeMisc (x : Reg) (kk : Byte) : Option Instr :=
  match kk.toNat with
  | 0x07 => some (.readDelay x)
  | 0x0A => some (.waitKey x)
  | 0x15 => some (.setDelay x)
  | 0x18 => some (.setSound x)
  | 0x1E => some (.addIndex x)
  | 0x29 => some (.loadFont x)
  | 0x33 => some (.storeBcd x)
  | 0x55 => some (.storeRegs x)
  | 0x65 => some (.loadRegs x)
  | _ => none

/-- The rows `00__` of R76: both words are fixed throughout. -/
def decodeFixed (b : Nibble) (kk : Byte) : Option Instr :=
  if b = 0 then
    match kk.toNat with
    | 0xE0 => some .clearScreen
    | 0xEE => some .ret
    | _ => none
  else none

/-- An exact match over the four nibbles (R77). A nibble that a row fixes must hold that value (decision D9). -/
def decodeNibbles (a b c d : Nibble) : Option Instr :=
  match a.toNat with
  | 0x0 => decodeFixed b (c ++ d)
  | 0x1 => some (.jump (b ++ c ++ d))
  | 0x2 => some (.call (b ++ c ++ d))
  | 0x3 => some (.skipEqImm (regOfNibble b) (c ++ d))
  | 0x4 => some (.skipNeImm (regOfNibble b) (c ++ d))
  | 0x5 => if d = 0 then some (.skipEqReg (regOfNibble b) (regOfNibble c)) else none
  | 0x6 => some (.loadImm (regOfNibble b) (c ++ d))
  | 0x7 => some (.addImm (regOfNibble b) (c ++ d))
  | 0x8 => decodeAlu (regOfNibble b) (regOfNibble c) d
  | 0x9 => if d = 0 then some (.skipNeReg (regOfNibble b) (regOfNibble c)) else none
  | 0xA => some (.loadIndex (b ++ c ++ d))
  | 0xB => some (.jumpV0 (b ++ c ++ d))
  | 0xC => some (.random (regOfNibble b) (c ++ d))
  | 0xD => some (.draw (regOfNibble b) (regOfNibble c) d.toNat)
  | 0xE => decodeKeySkip (regOfNibble b) (c ++ d)
  | _ => decodeMisc (regOfNibble b) (c ++ d)

/-- The instruction a word stands for, or none where R76 has no row for it (R77, R78). -/
def decode (w : Word) : Option Instr :=
  decodeNibbles (nibbleA w) (nibbleB w) (nibbleC w) (nibbleD w)

/-- Why bytes are not read as an instruction. -/
inductive DecodeReject where
  /-- Fewer than the two bytes of an instruction are there (R70). -/
  | truncated (available : Nat)
  /-- The word matches no row of R76 (R78). -/
  | invalidOpcode (word : Word)
  deriving DecidableEq, Repr

/-- Reads one instruction from bytes, the first in bits 15:8 (R55, R71), and gives back the bytes after it. -/
def decodeBytes : List Byte → Except DecodeReject (Instr × List Byte)
  | hi :: lo :: rest =>
    match decode (hi ++ lo) with
    | some i => .ok (i, rest)
    | none => .error (.invalidOpcode (hi ++ lo))
  | bytes => .error (.truncated bytes.length)

/-! ## Encode (R74, R76) -/

/-- A register index as a nibble (R73). -/
def nibbleOfReg (x : Reg) : Nibble := BitVec.ofNat 4 x.val

/-- A word from its four nibbles, most significant first (R72). -/
def wordOfNibbles (a b c d : Nibble) : Word := a ++ b ++ c ++ d

/-- The formats of R74 that hold an immediate `nnn`. -/
def wordFN (a : Nibble) (nnn : Addr) : Word :=
  wordOfNibbles a (nnn.extractLsb' 8 4) (nnn.extractLsb' 4 4) (nnn.extractLsb' 0 4)

/-- The format `FXK` of R74, and `FX` with the function byte for `kk`. -/
def wordFXK (a : Nibble) (x : Reg) (kk : Byte) : Word :=
  wordOfNibbles a (nibbleOfReg x) (kk.extractLsb' 4 4) (kk.extractLsb' 0 4)

/-- The formats `FXY` and `FXYN` of R74. -/
def wordFXYN (a : Nibble) (x y : Reg) (d : Nibble) : Word :=
  wordOfNibbles a (nibbleOfReg x) (nibbleOfReg y) d

/-- The word of an instruction (R76). -/
def encode : Instr → Word
  | .clearScreen => 0x00E0
  | .ret => 0x00EE
  | .jump nnn => wordFN 0x1#4 nnn
  | .call nnn => wordFN 0x2#4 nnn
  | .skipEqImm x kk => wordFXK 0x3#4 x kk
  | .skipNeImm x kk => wordFXK 0x4#4 x kk
  | .skipEqReg x y => wordFXYN 0x5#4 x y 0x0#4
  | .skipNeReg x y => wordFXYN 0x9#4 x y 0x0#4
  | .loadImm x kk => wordFXK 0x6#4 x kk
  | .addImm x kk => wordFXK 0x7#4 x kk
  | .loadReg x y => wordFXYN 0x8#4 x y 0x0#4
  | .orReg x y => wordFXYN 0x8#4 x y 0x1#4
  | .andReg x y => wordFXYN 0x8#4 x y 0x2#4
  | .xorReg x y => wordFXYN 0x8#4 x y 0x3#4
  | .addReg x y => wordFXYN 0x8#4 x y 0x4#4
  | .subReg x y => wordFXYN 0x8#4 x y 0x5#4
  | .shrReg x y => wordFXYN 0x8#4 x y 0x6#4
  | .subnReg x y => wordFXYN 0x8#4 x y 0x7#4
  | .shlReg x y => wordFXYN 0x8#4 x y 0xE#4
  | .loadIndex nnn => wordFN 0xA#4 nnn
  | .jumpV0 nnn => wordFN 0xB#4 nnn
  | .random x kk => wordFXK 0xC#4 x kk
  | .draw x y n => wordFXYN 0xD#4 x y (BitVec.ofNat 4 n)
  | .skipIfPressed x => wordFXK 0xE#4 x 0x9E#8
  | .skipIfNotPressed x => wordFXK 0xE#4 x 0xA1#8
  | .readDelay x => wordFXK 0xF#4 x 0x07#8
  | .waitKey x => wordFXK 0xF#4 x 0x0A#8
  | .setDelay x => wordFXK 0xF#4 x 0x15#8
  | .setSound x => wordFXK 0xF#4 x 0x18#8
  | .addIndex x => wordFXK 0xF#4 x 0x1E#8
  | .loadFont x => wordFXK 0xF#4 x 0x29#8
  | .storeBcd x => wordFXK 0xF#4 x 0x33#8
  | .storeRegs x => wordFXK 0xF#4 x 0x55#8
  | .loadRegs x => wordFXK 0xF#4 x 0x65#8

/-- The high byte of a word, which lies at the lower address (R55). -/
def highByte (w : Word) : Byte := w.extractLsb' 8 8
/-- The low byte of a word. -/
def lowByte (w : Word) : Byte := w.extractLsb' 0 8

/-- The two bytes of an instruction as memory holds them (R55). -/
def encodeBytes (i : Instr) : List Byte := [highByte (encode i), lowByte (encode i)]

/-! ## The opcode map as data (R76) -/

/-- One row of R76: a word stands for the row when `word AND mask = pattern`. -/
structure OpcodeRow where
  mask : Word
  pattern : Word
  deriving DecidableEq, Repr

/-- The word matches the row (R76). -/
abbrev OpcodeRow.matchesWord (r : OpcodeRow) (w : Word) : Prop := w &&& r.mask = r.pattern

/-- The mask and match columns of R76, rows 1 to 34 in order. -/
def opcodeRows : List OpcodeRow :=
  [⟨0xFFFF, 0x00E0⟩, ⟨0xFFFF, 0x00EE⟩, ⟨0xF000, 0x1000⟩, ⟨0xF000, 0x2000⟩, ⟨0xF000, 0x3000⟩, ⟨0xF000, 0x4000⟩,
   ⟨0xF00F, 0x5000⟩, ⟨0xF00F, 0x9000⟩, ⟨0xF000, 0x6000⟩, ⟨0xF000, 0x7000⟩] ++
  [⟨0xF00F, 0x8000⟩, ⟨0xF00F, 0x8001⟩, ⟨0xF00F, 0x8002⟩, ⟨0xF00F, 0x8003⟩, ⟨0xF00F, 0x8004⟩, ⟨0xF00F, 0x8005⟩,
   ⟨0xF00F, 0x8006⟩, ⟨0xF00F, 0x8007⟩, ⟨0xF00F, 0x800E⟩] ++
  [⟨0xF000, 0xA000⟩, ⟨0xF000, 0xB000⟩, ⟨0xF000, 0xC000⟩, ⟨0xF000, 0xD000⟩, ⟨0xF0FF, 0xE09E⟩, ⟨0xF0FF, 0xE0A1⟩] ++
  [⟨0xF0FF, 0xF007⟩, ⟨0xF0FF, 0xF00A⟩, ⟨0xF0FF, 0xF015⟩, ⟨0xF0FF, 0xF018⟩, ⟨0xF0FF, 0xF01E⟩, ⟨0xF0FF, 0xF029⟩,
   ⟨0xF0FF, 0xF033⟩, ⟨0xF0FF, 0xF055⟩, ⟨0xF0FF, 0xF065⟩]

/-- The row of R76 that an instruction is an instance of. -/
def Instr.row : Instr → OpcodeRow
  | .clearScreen => ⟨0xFFFF, 0x00E0⟩
  | .ret => ⟨0xFFFF, 0x00EE⟩
  | .jump _ => ⟨0xF000, 0x1000⟩
  | .call _ => ⟨0xF000, 0x2000⟩
  | .skipEqImm _ _ => ⟨0xF000, 0x3000⟩
  | .skipNeImm _ _ => ⟨0xF000, 0x4000⟩
  | .skipEqReg _ _ => ⟨0xF00F, 0x5000⟩
  | .skipNeReg _ _ => ⟨0xF00F, 0x9000⟩
  | .loadImm _ _ => ⟨0xF000, 0x6000⟩
  | .addImm _ _ => ⟨0xF000, 0x7000⟩
  | .loadReg _ _ => ⟨0xF00F, 0x8000⟩
  | .orReg _ _ => ⟨0xF00F, 0x8001⟩
  | .andReg _ _ => ⟨0xF00F, 0x8002⟩
  | .xorReg _ _ => ⟨0xF00F, 0x8003⟩
  | .addReg _ _ => ⟨0xF00F, 0x8004⟩
  | .subReg _ _ => ⟨0xF00F, 0x8005⟩
  | .shrReg _ _ => ⟨0xF00F, 0x8006⟩
  | .subnReg _ _ => ⟨0xF00F, 0x8007⟩
  | .shlReg _ _ => ⟨0xF00F, 0x800E⟩
  | .loadIndex _ => ⟨0xF000, 0xA000⟩
  | .jumpV0 _ => ⟨0xF000, 0xB000⟩
  | .random _ _ => ⟨0xF000, 0xC000⟩
  | .draw _ _ _ => ⟨0xF000, 0xD000⟩
  | .skipIfPressed _ => ⟨0xF0FF, 0xE09E⟩
  | .skipIfNotPressed _ => ⟨0xF0FF, 0xE0A1⟩
  | .readDelay _ => ⟨0xF0FF, 0xF007⟩
  | .waitKey _ => ⟨0xF0FF, 0xF00A⟩
  | .setDelay _ => ⟨0xF0FF, 0xF015⟩
  | .setSound _ => ⟨0xF0FF, 0xF018⟩
  | .addIndex _ => ⟨0xF0FF, 0xF01E⟩
  | .loadFont _ => ⟨0xF0FF, 0xF029⟩
  | .storeBcd _ => ⟨0xF0FF, 0xF033⟩
  | .storeRegs _ => ⟨0xF0FF, 0xF055⟩
  | .loadRegs _ => ⟨0xF0FF, 0xF065⟩

/-! ## The opcode table's numbering -/

/-- The word whose bits are the low `nbits` bits of `w`, every bit above them zero. -/
def tableWord (nbits w : Nat) : Word := BitVec.ofNat 16 (w % 2 ^ nbits)

/-- The instruction the decoder reads from an instruction whose bits are `w`, numbered as the opcode table numbers
them: one 16-bit word, bit 0 the least significant (R70, R72), laid out big-endian (R55). -/
def decodeTableWord (nbits w : Nat) : Option Instr :=
  match decodeBytes [highByte (tableWord nbits w), lowByte (tableWord nbits w)] with
  | .ok (i, _) => some i
  | .error _ => none

end Sys2Proof
end

