-- ==== Sys2Proof/Machine/State.lean ====
section
/-! DEFINITION. The state of the block (10_state.md R39), the reasons a step can stop, and the state after reset
(70_reset_and_hazards.md R290, R291). -/

namespace Sys2Proof.Machine

/-- The fatal-error kinds of R251, each with the value it records. -/
inductive FatalKind where
  /-- The fetched word matches no row of the opcode map (R78, R252). -/
  | invalidOpcode (word : Word)
  /-- `load I,font(Vx)` with Vx above 15 (R163, R253). -/
  | invalidCharacter (value : Byte)
  /-- The host's pixel get or set outside the 32×64 grid (R198, R199, R254). -/
  | pixelOutOfBounds (row column : Int)
  /-- `call` at SP = 16 (R103, R255). -/
  | stackOverflow
  /-- `return` at SP = 0 (R101, R256). -/
  | stackUnderflow
  /-- An access above 0xFFF, with the lowest out-of-range address (R53, R257). -/
  | memoryOutOfBounds (address : Nat)
  deriving DecidableEq, Repr

/-- The status of R34: running, or stopped for good by a fatal error. -/
inductive Status where
  | running
  | fatal (kind : FatalKind)
  deriving DecidableEq, Repr

/-- Memory as the cells that differ from their contents right after construction, addresses strictly rising. What an
unlisted address reads as is `Memory.unlisted` (Machine/Ops.lean). -/
abbrev Memory := List Host.Cell

/-- The whole state of the block: the tuple of R39 and the configuration fixed at construction, and nothing else. None
of what R38 lists is in it: no generator of random bytes, no waiting flag, no decoded instruction, no time. -/
structure Block where
  /-- V0..VF (R20). -/
  v : Vector Byte 16
  /-- `I`, the index register, 12 bits (R23). -/
  i : Addr
  /-- `PC`, the address of the next instruction to fetch (R22). -/
  pc : Word
  /-- The sixteen return-address slots (R24). -/
  stack : Vector Word 16
  /-- `SP`, the next free slot, 0..16 (R25). -/
  sp : Fin 17
  /-- `DT`, the delay timer (R26). -/
  dt : Byte
  /-- `ST`, the sound timer (R27). -/
  st : Byte
  /-- The framebuffer, row 0 at the top (R30). -/
  fb : Vector PixelRow 32
  /-- The snapshot the framebuffer read retains when `PERSIST` is true (R32). -/
  prev : Vector PixelRow 32
  /-- The key mask, bit `k` for key `k`, 1 pressed (R33). -/
  keys : BitVec 16
  /-- Running, or the fatal error that ended the machine's life (R34). -/
  status : Status
  /-- The 4096 memory cells (R50), as the cells that differ from the reset contents. -/
  mem : Memory
  /-- `wrap_x`, `wrap_y` (R31) and the other construction parameters (R6, R39). -/
  cfg : Config
  deriving DecidableEq, Repr

/-- The block, and beside it the one piece of the environment that the form of `step` needs. A cycle takes a random byte
as an input (R86, R272). `State.cycle` takes it as an argument; `step` and `exec`, whose form has no argument for it, take
the free value `Config.drawByte draws` instead. -/
structure State extends Block where
  /-- THE MODEL'S OWN, no state of the block (R38): how many inputs the environment has supplied to `random` through
  `step`, so that each execution gets a free value of its own (log entry 3). -/
  draws : Nat
  deriving DecidableEq, Repr

/-- Why a step, or a host operation, has no move. None is raised by an instruction: every fatal error of the spec is
a next state with `status = fatal kind`. -/
inductive Fault where
  /-- Raised by `step` and by every host operation when `status = fatal kind`: the machine's life has ended (R89,
  R250). SAFE: the spec gives no further move. -/
  | stopped (kind : FatalKind)
  /-- Raised by the host's key operations for an index above 15: "no move" (R273, R278). SAFE: the host never passes
  one. -/
  | noSuchKey (index : Nat)
  /-- Raised by the host's load after a cycle or after a successful load: "no move" (R271, R278). SAFE: the host never
  does so. -/
  | loadTooLate
  deriving DecidableEq, Repr

/-- Why an instruction is refused. -/
inductive Refusal where
  /-- Raised by an arm of `exec` that has no meaning yet, with the instruction's mnemonic. SAFE: nothing runs. No arm
  raises it now. -/
  | notModelled (mnemonic : String)
  deriving DecidableEq, Repr

/-- Construction, which is reset (R290, R291): memory holds the font and zeros (nothing is listed), the program
counter is the entry point 0x200 (R292), everything else is zero, dark, unpressed, running. -/
def State.construct (c : Config) : State where
  v := Vector.replicate 16 0
  i := 0
  pc := BitVec.ofNat 16 programBase
  stack := Vector.replicate 16 0
  sp := 0
  dt := 0
  st := 0
  fb := Vector.replicate 32 0
  prev := Vector.replicate 32 0
  keys := 0
  status := .running
  mem := []
  cfg := c
  draws := 0

/-- The machine right after reset, built with the parameters the spec decides; `WRAP_X` and `WRAP_Y` stay open. -/
def State.reset : State := State.construct Config.decided

end Sys2Proof.Machine
end

