-- ==== Sys2Proof/Machine/Flags.lean ====
section
/-! DEFINITION. Every value an instruction writes to VF as a flag (10_state.md R21). Each is 0 or 1. -/

namespace Sys2Proof.Machine.Flags

/-- A condition as the flag value 1 or 0 (R21). -/
def ofBool (b : Bool) : Byte := if b then 1 else 0

/-- `add Vx,Vy`: 1 when the sum of the bytes exceeds 255 (R137). -/
def carry (a b : Byte) : Byte := ofBool (255 < a.toNat + b.toNat)

/-- `sub` and `subn`: 1 when the first operand is strictly greater, 0 when they are equal (R138, R140; C2). -/
def noBorrow (a b : Byte) : Byte := ofBool (b.toNat < a.toNat)

/-- `shr`: the least significant bit of the source (R139). -/
def shiftedOutLow (b : Byte) : Byte := ofBool (b.getLsbD 0)

/-- `shl`: the most significant bit of the source (R141). -/
def shiftedOutHigh (b : Byte) : Byte := ofBool (b.getLsbD 7)

/-- `draw`, one row: some bit of the placed word `w` is not lit in the new row, so it was lit and went dark (R195). -/
def rowCollides (w new : PixelRow) : Bool := (w &&& new) != w

end Sys2Proof.Machine.Flags
end

