-- ==== Sys2Proof/Machine/Ops.lean ====
section
/-! DEFINITION. The named operations over registers, stack and memory, the program-counter effect, and raising a
fatal error, the machine's one exception mechanism. -/

namespace Sys2Proof.Machine

/-- What running an instruction answers. -/
abbrev Result := Host.Outcome State Fault Refusal

/-! ## Memory (20_memory.md) -/

namespace Memory

/-- What a cell that memory does not list reads as: its contents right after construction, the font table at
`FONT_BASE` and zero elsewhere (R290, R291, R35). -/
def unlisted (c : Config) (a : Nat) : Byte :=
  if h : c.fontBase.toNat ≤ a ∧ a < c.fontBase.toNat + Config.fontBytes then
    (c.fontGlyphs[(a - c.fontBase.toNat) / 5]'(by have := h.2; unfold Config.fontBytes at this; omega))[
      (a - c.fontBase.toNat) % 5]
  else 0

/-- The listed byte at an address. -/
def find? : Memory → Nat → Option Byte
  | [], _ => none
  | (k, b) :: m, a => if k = a then some b else find? m a

/-- The byte at an address: `memory[a]` (R50, R52). -/
def read (c : Config) (m : Memory) (a : Nat) : Byte := (find? m a).getD (unlisted c a)

/-- Memory without an entry for an address. -/
def erase : Memory → Nat → Memory
  | [], _ => []
  | (k, b) :: m, a => if k = a then erase m a else (k, b) :: erase m a

/-- Memory with an entry for an address, in its place. -/
def insert : Memory → Nat → Byte → Memory
  | [], a, v => [(a, v)]
  | (k, b) :: m, a, v =>
    if a < k then (a, v) :: (k, b) :: m
    else if k = a then (a, v) :: m
    else (k, b) :: insert m a v

/-- `memory[a] <- v` (R52). A cell that gets its reset contents back is no longer listed. -/
def write (c : Config) (m : Memory) (a : Nat) (v : Byte) : Memory :=
  if v = unlisted c a then erase m a else insert m a v

/-- Writes of consecutive bytes, at ascending addresses (R160, R165). -/
def writeBytes (c : Config) : Memory → Nat → List Byte → Memory
  | m, _, [] => m
  | m, a, v :: vs => writeBytes c (write c m a v) (a + 1) vs

/-- The canonical form: addresses strictly rise and exist, and no entry equals what its address reads as unlisted. -/
abbrev wf (c : Config) (m : Memory) : Prop :=
  m.Pairwise (fun p q => p.1 < q.1) ∧ ∀ e ∈ m, e.1 < memSize ∧ e.2 ≠ unlisted c e.1

end Memory

/-- The lowest address from `a` up, among `n` consecutive ones, that does not exist (R52, R53). -/
def outOfRange (a n : Nat) : Option Nat :=
  if n = 0 ∨ a + n ≤ memSize then none else some (max a memSize)

/-! ## Raising a fatal error (60_exceptions.md) -/

/-- The code of a kind: R251's own numbering. No rule reads it; it is the number a host may report. -/
def FatalKind.code : FatalKind → Nat
  | .invalidOpcode _ => 1
  | .invalidCharacter _ => 2
  | .pixelOutOfBounds _ _ => 3
  | .stackOverflow => 4
  | .stackUnderflow => 5
  | .memoryOutOfBounds _ => 6

/-- `raise Fatal(kind)`: only `status` changes; everything else, `PC` included, stays as it was (R250, R259). There is
no handler and no return from one (R260). -/
def State.raiseFatal (s : State) (k : FatalKind) : State := { s with status := .fatal k }

/-- A fatal error ends the cycle in the state that records it. -/
def raise (k : FatalKind) (s : State) : Result := .next (s.raiseFatal k)

/-- The bounds check of R53: every address to be touched is checked before any is, and the lowest out-of-range one is
recorded. -/
def guardRange (a n : Nat) (s : State) (body : Result) : Result :=
  match outOfRange a n with
  | some bad => raise (.memoryOutOfBounds bad) s
  | none => body

/-! ## The state's accessors and updates -/

namespace State

/-- `V[x]` (R8, R20). -/
def reg (s : State) (x : Reg) : Byte := s.v[x.val]

/-- `V[x] <- b` (R8, R20). -/
def setReg (s : State) (x : Reg) (b : Byte) : State := { s with v := s.v.set x.val b }

/-- V0..Vx (inclusive) take the bytes `f 0`, `f 1`, …; the others keep theirs (R166). -/
def setRegsUpTo (s : State) (x : Reg) (f : Nat → Byte) : State :=
  { s with v := s.v.mapFinIdx fun k old _ => if k ≤ x.val then f k else old }

/-- `I <- a` (R23). -/
def setIndex (s : State) (a : Addr) : State := { s with i := a }

/-- `DT <- b` (R26). -/
def setDT (s : State) (b : Byte) : State := { s with dt := b }

/-- `ST <- b` (R27). -/
def setST (s : State) (b : Byte) : State := { s with st := b }

/-- The framebuffer replaced (R30). -/
def setFb (s : State) (fb : Vector PixelRow 32) : State := { s with fb := fb }

/-- The retained snapshot replaced (R32). -/
def setPrev (s : State) (fb : Vector PixelRow 32) : State := { s with prev := fb }

/-- The key mask replaced (R33). -/
def setKeys (s : State) (m : BitVec 16) : State := { s with keys := m }

/-- One random byte has been supplied by the environment (log entry 3). -/
def countDraw (s : State) : State := { s with draws := s.draws + 1 }

/-- `memory[a]` (R8, R52). -/
def readByte (s : State) (a : Nat) : Byte := Memory.read s.cfg s.mem a

/-- The `n` bytes from `a` up (R56). -/
def readBytes (s : State) (a n : Nat) : List Byte := (List.range n).map fun k => s.readByte (a + k)

/-- The bytes stored from `a` up, ascending (R56). -/
def writeBytes (s : State) (a : Nat) (bs : List Byte) : State :=
  { s with mem := Memory.writeBytes s.cfg s.mem a bs }

end State

/-! ## The call stack (R24, R25) -/

/-- `stack[SP] <- ra`, then `SP <- SP + 1` (R25, R103). -/
def State.push (s : State) (ra : Word) (h : s.sp.val < 16) : State :=
  { s with stack := s.stack.set s.sp.val ra, sp := ⟨s.sp.val + 1, by omega⟩ }

/-- The return address last pushed: `stack[SP]` after the decrement (R101). -/
def State.topReturn (s : State) : Word := s.stack[s.sp.val - 1]'(by omega)

/-- `SP <- SP - 1`; the slot is not cleared (R24, R25, R101). -/
def State.pop (s : State) : State := { s with sp := ⟨s.sp.val - 1, by omega⟩ }

/-- Pushes a return address, or raises StackOverflow at SP = 16 (R25, R255); what follows sees the state after the
push. -/
def pushThen (ra : Word) (s : State) (k : State → Result) : Result :=
  if h : s.sp.val < 16 then k (s.push ra h) else raise .stackOverflow s

/-- Pops a return address, or raises StackUnderflow at SP = 0 (R25, R256). -/
def popThen (s : State) (k : Word → State → Result) : Result :=
  if s.sp.val = 0 then raise .stackUnderflow s else k s.topReturn s.pop

/-! ## The program-counter effect (30_encoding.md R87, R88) -/

/-- The three effects an instruction can have on the program counter (R87). -/
inductive PcEffect where
  | advance
  | skip
  | jumpTo (a : Word)
  deriving DecidableEq, Repr

/-- `next_pc` of R87. The plain sums of the rule fit 16 bits wherever a fetch has succeeded (log entry 9). -/
def nextPc (pc : Word) : PcEffect → Word
  | .advance => pc + 2
  | .skip => pc + 4
  | .jumpTo a => a

/-- The program counter after an effect, applied once the instruction's own writes are done (R87). -/
def State.applyEffect (s : State) (e : PcEffect) : State := { s with pc := nextPc s.pc e }

/-- An instruction completes: its writes have been made, and its effect moves the program counter (R9, R87). -/
def complete (e : PcEffect) (s : State) : Result := .next (s.applyEffect e)

/-- The effect of a conditional skip (R28, R104). -/
def skipIf (c : Bool) : PcEffect := if c then .skip else .advance

/-! ## Fetch (30_encoding.md R71, R86) -/

/-- The word at `PC`, big-endian, at any alignment (R54, R55, R71). -/
def State.fetchWord (s : State) : Word := s.readByte s.pc.toNat ++ s.readByte (s.pc.toNat + 1)

/-- Decoding a fetched word and executing what it decodes to; a word without a row is InvalidOpcode, raised before any
part of an instruction executes (R78, R86, R252). -/
def decodeAndRun (run : Instr → State → Result) (w : Word) (s : State) : Result :=
  match decode w with
  | none => raise (.invalidOpcode w) s
  | some i => run i s

/-- One cycle of a running machine, with `run` to execute the decoded instruction: the fetch's bounds checks, then decoding,
then the instruction (R86, R258). -/
def cycleWith (run : Instr → State → Result) (s : State) : Result :=
  guardRange s.pc.toNat 2 s (decodeAndRun run s.fetchWord s)

/-! ## Placing a word where the next cycle fetches it -/

/-- Whether two bytes can be fetched at the program counter (R86). -/
def State.canFetch (s : State) : Bool := s.pc.toNat + 2 ≤ memSize

/-- The address the next cycle fetches at; the entry point where the program counter points past memory, so that no
cycle could fetch there. -/
def State.fetchAddress (s : State) : Word := if s.canFetch then s.pc else BitVec.ofNat 16 programBase

/-- The state with a word stored, big-endian, where the next cycle fetches, and the machine running (log entry 10).
The word stands for a loaded program (R271). -/
def State.withWordAtFetch (s : State) (w : Word) : State :=
  { s.writeBytes s.fetchAddress.toNat [highByte w, lowByte w] with pc := s.fetchAddress, status := .running }

end Sys2Proof.Machine
end

