-- ==== Sys2Proof/Machine/Operands.lean ====
section
/-! DEFINITION. The operand forms: where each instruction's addresses, targets and values come from (30_encoding.md
R73, R75; 42_index_memory.md R160). Registers and immediates are read by `State.reg` and from the instruction. -/

namespace Sys2Proof.Machine

/-- The one data address form, `EA = I + k`: an integer that does not wrap (R160). The first address of an access. -/
def State.dataAddress (s : State) : Nat := s.i.toNat

/-- The target of `jump nnn` and `call nnn`: the base offset added (R75, R102). -/
def offsetTarget (nnn : Addr) : Word := jumpBase + nnn.setWidth 16

/-- The target of `jump V0,nnn`: no base offset, no wrap at 12 bits (R108). -/
def State.indexedTarget (s : State) (nnn : Addr) : Word := (s.reg 0).setWidth 16 + nnn.setWidth 16

/-- The return address `call` pushes: the instruction after it (R103, decision D10). -/
def State.returnAddress (s : State) : Word := s.pc + 2

/-- The glyph address of a digit: `FONT_BASE + 5 * v` (R35, R163). -/
def State.glyphAddress (s : State) (v : Byte) : Addr := BitVec.ofNat 12 (s.cfg.fontBase.toNat + 5 * v.toNat)

/-- The random byte that the environment supplies to this execution where `step` has no argument for it: a free value
(R86, R142, log entry 3). -/
def State.randomByte (s : State) : Byte := Config.drawByte s.draws

/-- The decimal digits of a byte: hundreds, tens, units, each the number 0..9 (R164). -/
def decimalDigits (v : Byte) : List Byte :=
  [BitVec.ofNat 8 (v.toNat / 100), BitVec.ofNat 8 (v.toNat / 10 % 10), BitVec.ofNat 8 (v.toNat % 10)]

/-- The bytes of V0..Vx, V0 first (R165). -/
def State.regsUpTo (s : State) (x : Reg) : List Byte := s.v.toList.take (x.val + 1)

/-- The key query: true exactly when `k` is at most 15 and its bit is 1 (R220). -/
def State.pressed (s : State) (k : Byte) : Bool := decide (k.toNat ≤ 15) && s.keys.getLsbD k.toNat

/-- The least index of a pressed key, if any key is pressed (R224). -/
def State.leastPressed (s : State) : Option Nat := (List.range 16).find? fun k => s.keys.getLsbD k

end Sys2Proof.Machine
end

