-- ==== Sys2Proof/Machine/Alu.lean ====
section
/-! DEFINITION. Register loads, arithmetic, logic, shifts and random (41_alu.md). All arithmetic is modulo 256 (R130). -/

namespace Sys2Proof.Machine

/-- Writes one register and advances (R130). -/
def writeReg (x : Reg) (b : Byte) (s : State) : Result := complete .advance (s.setReg x b)

/-- Writes the flag to VF first and the result to Vx second, both already computed, so that with x = F the result
stays (R130, decision D11). -/
def writeFlagAndReg (flag : Byte) (x : Reg) (b : Byte) (s : State) : Result :=
  complete .advance ((s.setReg VF flag).setReg x b)

/-- load Vx,kk (R131). -/
def execLoadImm (x : Reg) (kk : Byte) (s : State) : Result := writeReg x kk s

/-- add Vx,kk: wrapping, no carry reported (R132). -/
def execAddImm (x : Reg) (kk : Byte) (s : State) : Result := writeReg x (s.reg x + kk) s

/-- load Vx,Vy (R133). -/
def execLoadReg (x y : Reg) (s : State) : Result := writeReg x (s.reg y) s

/-- or Vx,Vy (R134). -/
def execOrReg (x y : Reg) (s : State) : Result := writeReg x (s.reg x ||| s.reg y) s

/-- and Vx,Vy (R135). -/
def execAndReg (x y : Reg) (s : State) : Result := writeReg x (s.reg x &&& s.reg y) s

/-- xor Vx,Vy (R136). -/
def execXorReg (x y : Reg) (s : State) : Result := writeReg x (s.reg x ^^^ s.reg y) s

/-- add Vx,Vy (R137). -/
def execAddReg (x y : Reg) (s : State) : Result :=
  writeFlagAndReg (Flags.carry (s.reg x) (s.reg y)) x (s.reg x + s.reg y) s

/-- sub Vx,Vy (R138). -/
def execSubReg (x y : Reg) (s : State) : Result :=
  writeFlagAndReg (Flags.noBorrow (s.reg x) (s.reg y)) x (s.reg x - s.reg y) s

/-- shr Vx,Vy: the source is Vy (R139). -/
def execShrReg (x y : Reg) (s : State) : Result :=
  writeFlagAndReg (Flags.shiftedOutLow (s.reg y)) x (s.reg y >>> 1) s

/-- subn Vx,Vy (R140). -/
def execSubnReg (x y : Reg) (s : State) : Result :=
  writeFlagAndReg (Flags.noBorrow (s.reg y) (s.reg x)) x (s.reg y - s.reg x) s

/-- shl Vx,Vy: the source is Vy (R141). -/
def execShlReg (x y : Reg) (s : State) : Result :=
  writeFlagAndReg (Flags.shiftedOutHigh (s.reg y)) x (s.reg y <<< 1) s

/-- random Vx,kk on the byte `r` that the cycle was given (R86, R142). -/
def randomFrom (r : Byte) (x : Reg) (kk : Byte) (s : State) : Result := writeReg x (r &&& kk) s

/-- random Vx,kk on a byte that the environment supplies: a free value, and another at the next execution (R142, log
entry 3). -/
def execRandom (x : Reg) (kk : Byte) (s : State) : Result := randomFrom s.randomByte x kk s.countDraw

end Sys2Proof.Machine
end

