-- ==== Sys2Proof/Machine/ControlFlow.lean ====
section
/-! DEFINITION. Control transfer (40_control_flow.md). -/

namespace Sys2Proof.Machine

/-- return (R101). -/
def execRet (s : State) : Result := popThen s fun ra s' => complete (.jumpTo ra) s'

/-- jump nnn (R102). -/
def execJump (nnn : Addr) (s : State) : Result := complete (.jumpTo (offsetTarget nnn)) s

/-- call nnn (R103). -/
def execCall (nnn : Addr) (s : State) : Result :=
  pushThen s.returnAddress s fun s' => complete (.jumpTo (offsetTarget nnn)) s'

/-- skip-eq Vx,kk (R104). -/
def execSkipEqImm (x : Reg) (kk : Byte) (s : State) : Result := complete (skipIf (s.reg x == kk)) s

/-- skip-ne Vx,kk (R105). -/
def execSkipNeImm (x : Reg) (kk : Byte) (s : State) : Result := complete (skipIf (s.reg x != kk)) s

/-- skip-eq Vx,Vy (R106). -/
def execSkipEqReg (x y : Reg) (s : State) : Result := complete (skipIf (s.reg x == s.reg y)) s

/-- skip-ne Vx,Vy (R107). -/
def execSkipNeReg (x y : Reg) (s : State) : Result := complete (skipIf (s.reg x != s.reg y)) s

/-- jump V0,nnn (R108). -/
def execJumpV0 (nnn : Addr) (s : State) : Result := complete (.jumpTo (s.indexedTarget nnn)) s

end Sys2Proof.Machine
end

