-- ==== Sys2Proof/Machine/Display.lean ====
section
/-! DEFINITION. The Display Surface: clear, sprite compositing and point-level pixel access (43_display.md). -/

namespace Sys2Proof.Machine

/-- A sprite byte placed with its most significant bit at column `cx`, by the shift amount 63 − cx − 7 (R193). -/
def place (c : Config) (b cx : Byte) : PixelRow :=
  let shift : Int := 63 - (cx.toNat : Int) - 7
  if 0 ≤ shift then b.setWidth 64 <<< shift.toNat
  else if c.wrapX then (b.setWidth 64).rotateRight ((-shift).toNat % 64)
  else if -shift < 64 then b.setWidth 64 >>> (-shift).toNat
  else 0

/-- The row a sprite row at `t` goes to, or none where it is dropped (R194). -/
def targetRow (c : Config) (t : Nat) : Option (Fin 32) :=
  if h : t ≤ 31 then some ⟨t, by omega⟩
  else if c.wrapY then some ⟨t % 32, by omega⟩
  else none

/-- Composes one sprite byte: XORs its placed word into the row it goes to, and tells whether that row collided; a dropped
row changes nothing and does not collide (R194, R195). -/
def composeRow (c : Config) (cx b : Byte) (t : Nat) (fb : Vector PixelRow 32) : Vector PixelRow 32 × Bool :=
  match targetRow c t with
  | none => (fb, false)
  | some r =>
    (fb.set r.val (fb[r.val] ^^^ place c b cx), Flags.rowCollides (place c b cx) (fb[r.val] ^^^ place c b cx))

/-- Composes sprite bytes, the first at row `t`, ascending; the sprite collides when any of its rows does (R192, R196). -/
def composeSprite (c : Config) (cx : Byte) : Nat → List Byte → Vector PixelRow 32 → Vector PixelRow 32 × Bool
  | _, [], fb => (fb, false)
  | t, b :: bs, fb =>
    let row := composeRow c cx b t fb
    let rest := composeSprite c cx (t + 1) bs row.1
    (rest.1, row.2 || rest.2)

/-- clear-screen (R191). -/
def execClearScreen (s : State) : Result := complete .advance (s.setFb (Vector.replicate 32 0))

/-- draw Vx,Vy,n: coordinates unreduced, all `n` bytes checked and read first, VF the collision (R192). -/
def execDraw (x y : Reg) (n : Nat) (s : State) : Result :=
  guardRange s.dataAddress n s <|
    let drawn := composeSprite s.cfg (s.reg x) (s.reg y).toNat (s.readBytes s.dataAddress n) s.fb
    complete .advance ((s.setFb drawn.1).setReg VF (Flags.ofBool drawn.2))

/-! ## Point-level access (R198, R199) -/

/-- Pixel (row `r`, column `c`): bit 63 − c of the row, true when lit (R30). -/
def State.pixel (s : State) (r : Fin 32) (c : Fin 64) : Bool := s.fb[r.val].getLsbD (63 - c.val)

/-- A row with one pixel set to a value, the others kept (R199). -/
def setPixelInRow (row : PixelRow) (c : Fin 64) (lit : Bool) : PixelRow :=
  if lit then row ||| (1#64 <<< (63 - c.val)) else row &&& ~~~(1#64 <<< (63 - c.val))

/-- The framebuffer with one pixel set (R199). -/
def State.withPixel (s : State) (r : Fin 32) (c : Fin 64) (lit : Bool) : State :=
  s.setFb (s.fb.set r.val (setPixelInRow s.fb[r.val] c lit))

/-- A requested point as a pixel of the 32×64 grid, or none outside it, negative coordinates included (R198). -/
def gridPoint (r c : Int) : Option (Fin 32 × Fin 64) :=
  if h : (0 ≤ r ∧ r ≤ 31) ∧ (0 ≤ c ∧ c ≤ 63) then some (⟨r.toNat, by omega⟩, ⟨c.toNat, by omega⟩) else none

end Sys2Proof.Machine
end

