-- ==== Sys2Proof/Machine/IndexMemory.lean ====
section
/-! DEFINITION. The index register and memory transfers (42_index_memory.md). No access changes `I` (R160). -/

namespace Sys2Proof.Machine

/-- Stores bytes from `I` up, all addresses checked first, and advances (R53, R160). -/
def storeAtIndex (bs : List Byte) (s : State) : Result :=
  guardRange s.dataAddress bs.length s (complete .advance (s.writeBytes s.dataAddress bs))

/-- load I,nnn (R161). -/
def execLoadIndex (nnn : Addr) (s : State) : Result := complete .advance (s.setIndex nnn)

/-- add I,Vx: modulo 0x1000, VF not written (R162). -/
def execAddIndex (x : Reg) (s : State) : Result :=
  complete .advance (s.setIndex (s.i + (s.reg x).setWidth 12))

/-- load I,font(Vx): Vx above 15 raises InvalidCharacter (R163, R253). -/
def execLoadFont (x : Reg) (s : State) : Result :=
  if 15 < (s.reg x).toNat then raise (.invalidCharacter (s.reg x)) s
  else complete .advance (s.setIndex (s.glyphAddress (s.reg x)))

/-- store-BCD Vx (R164). -/
def execStoreBcd (x : Reg) (s : State) : Result := storeAtIndex (decimalDigits (s.reg x)) s

/-- store-regs Vx (R165). -/
def execStoreRegs (x : Reg) (s : State) : Result := storeAtIndex (s.regsUpTo x) s

/-- load-regs Vx (R166). -/
def execLoadRegs (x : Reg) (s : State) : Result :=
  guardRange s.dataAddress (x.val + 1) s
    (complete .advance (s.setRegsUpTo x fun k => s.readByte (s.dataAddress + k)))

end Sys2Proof.Machine
end

