-- ==== Sys2Proof/Machine/InputTimers.lean ====
section
/-! DEFINITION. Key input and timer instructions (44_timers_input.md). None raises a fatal error. -/

namespace Sys2Proof.Machine

/-- skip-if-pressed Vx (R221). -/
def execSkipIfPressed (x : Reg) (s : State) : Result := complete (skipIf (s.pressed (s.reg x))) s

/-- skip-if-not-pressed Vx (R222). -/
def execSkipIfNotPressed (x : Reg) (s : State) : Result := complete (skipIf (!s.pressed (s.reg x))) s

/-- load Vx,delay-timer (R223). -/
def execReadDelay (x : Reg) (s : State) : Result := complete .advance (s.setReg x s.dt)

/-- load Vx,key: with no key pressed the instruction jumps to itself and writes nothing (R224, R88). -/
def execWaitKey (x : Reg) (s : State) : Result :=
  match s.leastPressed with
  | none => complete (.jumpTo s.pc) s
  | some k => complete .advance (s.setReg x (BitVec.ofNat 8 k))

/-- load delay-timer,Vx (R225). -/
def execSetDelay (x : Reg) (s : State) : Result := complete .advance (s.setDT (s.reg x))

/-- load sound-timer,Vx (R226). -/
def execSetSound (x : Reg) (s : State) : Result := complete .advance (s.setST (s.reg x))

end Sys2Proof.Machine
end

