-- ==== Sys2Proof/Machine/Step.lean ====
section
/-! DEFINITION. One cycle (30_encoding.md R85, R86), and how the host places the instruction the next cycle runs. -/

namespace Sys2Proof.Machine

/-- "Execute one cycle": fetch, decode and execute one instruction (R86), possible only while the machine is running
(R89). The random input of R86 is a free value here; `State.cycle` takes it as an argument. -/
def step (s : State) : Host.Outcome State Fault Refusal :=
  match s.status with
  | .fatal k => .fault (.stopped k)
  | .running => cycleWith exec s

/-- The state in which the next cycle fetches and runs the table's word `w` (log entry 10). -/
def State.withFetchWord (s : State) (nbits w : Nat) : State := s.withWordAtFetch (tableWord nbits w)

end Sys2Proof.Machine
end

