-- ==== Sys2Proof/Machine/Cycle.lean ====
section
/-! DEFINITION. The cycle with its random byte as an input (30_encoding.md R86, 60_exceptions.md R272), as the host runs
it. `step` in Step.lean is this cycle on a free byte. -/

namespace Sys2Proof.Machine

/-- Executes an instruction in a cycle given the byte `r`. Only `random` reads it; every other instruction is `exec`'s
(R86). -/
def execOn (r : Byte) (i : Instr) (s : State) : Result :=
  match i with
  | .random x kk => randomFrom r x kk s
  | other => exec other s

/-- `cycle(r)` of R86: possible only while the machine is running (R89). -/
def State.cycle (r : Byte) (s : State) : Result :=
  match s.status with
  | .fatal k => .fault (.stopped k)
  | .running => cycleWith (execOn r) s

end Sys2Proof.Machine
end

