-- ==== Sys2Proof/Machine/HostInterface.lean ====
section
/-! DEFINITION. The host's operations (60_exceptions.md R270 to R279). Each happens between two cycles (R277), and none
is accepted after a fatal error (R250). -/

namespace Sys2Proof.Machine

/-! ## The operations on the block's state -/

/-- A timer one tick later: it never goes below zero (R274). -/
def tickTimer (t : Byte) : Byte := if 0 < t.toNat then t - 1 else t

/-- Timer tick: each non-zero timer counts down by one (R274). -/
def State.tick (s : State) : State := (s.setDT (tickTimer s.dt)).setST (tickTimer s.st)

/-- `set_pressed(k)`: key `k` and no other is pressed (R273). -/
def State.setPressed (s : State) (k : Fin 16) : State := s.setKeys (1#16 <<< k.val)

/-- `release(k)`: key `k` is not pressed (R273). -/
def State.release (s : State) (k : Fin 16) : State := s.setKeys (s.keys &&& ~~~(1#16 <<< k.val))

/-- The rows a framebuffer read gives: with `PERSIST`, combined with the previous read's snapshot (R275). -/
def State.frame (s : State) : Vector PixelRow 32 :=
  if s.cfg.persist then Vector.zipWith (· ||| ·) s.fb s.prev else s.fb

/-- What a framebuffer read leaves: with `PERSIST`, the raw bitmap becomes the snapshot (R275). -/
def State.afterFrameRead (s : State) : State := if s.cfg.persist then s.setPrev s.fb else s

/-- The program image copied to 0x200 and up (R271). -/
def State.loadImage (s : State) (bytes : List Byte) : State := s.writeBytes programBase bytes

/-! ## The host's side -/

/-- The operations of R270 after construction. A key index and a point are what the host passes, checked here. -/
inductive HostOp where
  /-- load program (R271) -/
  | load (bytes : List Byte)
  /-- cycle, with the random byte that `random` reads (R86, R272) -/
  | cycle (r : Byte)
  /-- timer tick (R274) -/
  | tick
  /-- key set (R273) -/
  | setPressed (k : Nat)
  /-- key release (R273) -/
  | release (k : Nat)
  /-- framebuffer read (R275) -/
  | readFrame
  /-- pixel get (R198, R276) -/
  | getPixel (r c : Int)
  /-- pixel set (R199, R276) -/
  | setPixel (r c : Int) (lit : Bool)
  deriving DecidableEq, Repr

/-- What an operation gives back to the host. -/
inductive Reply where
  /-- nothing -/
  | done
  /-- `Ok` of a load (R271) -/
  | loadOk
  /-- `LoadError(TooLarge)`: memory unchanged, status still running (R271) -/
  | loadTooLarge
  /-- the rows of a framebuffer read (R275) -/
  | frame (rows : Vector PixelRow 32)
  /-- the value of a pixel get, true when lit (R198) -/
  | pixel (lit : Bool)
  deriving DecidableEq, Repr

/-- The block and what the host has done to it that decides whether a load is allowed: R271 asks that no cycle has run
and no load has succeeded. These two facts are the host's history, no state of the block (R39). -/
structure Session where
  block : State
  cycled : Bool
  loaded : Bool
  deriving DecidableEq, Repr

/-- The session right after the block is constructed (R270, R290). -/
def Session.construct (c : Config) : Session := ⟨State.construct c, false, false⟩

/-- What an operation of the host answers: the session after it and its reply. -/
abbrev HostResult := Host.Outcome (Session × Reply) Fault Refusal

/-- The block's state replaced, with a reply. -/
def Session.answer (h : Session) (s : State) (r : Reply) : HostResult := .next ({ h with block := s }, r)

/-- Load program: at most 3584 bytes, before the first cycle and once (R271, decision D18). -/
def Session.load (h : Session) (bytes : List Byte) : HostResult :=
  if h.cycled ∨ h.loaded then .fault .loadTooLate
  else if programMax < bytes.length then h.answer h.block .loadTooLarge
  else .next ({ h with block := h.block.loadImage bytes, loaded := true }, .loadOk)

/-- Cycle: exactly one instruction, on the random byte given (R86, R272). -/
def Session.cycle (h : Session) (r : Byte) : HostResult :=
  match h.block.cycle r with
  | .next s => .next ({ h with block := s, cycled := true }, .done)
  | .fault f => .fault f
  | .refused r => .refused r

/-- A key operation: an index above 15 has no move (R273, R278). -/
def Session.key (h : Session) (k : Nat) (op : Fin 16 → State) : HostResult :=
  if lt : k < 16 then h.answer (op ⟨k, lt⟩) .done else .fault (.noSuchKey k)

/-- A pixel operation: outside the grid it raises PixelOutOfBounds and writes nothing (R198, R199, R254). -/
def Session.point (h : Session) (r c : Int) (op : Fin 32 → Fin 64 → State × Reply) : HostResult :=
  match gridPoint r c with
  | some (r', c') => h.answer (op r' c').1 (op r' c').2
  | none => h.answer (h.block.raiseFatal (.pixelOutOfBounds r c)) .done

/-- The operation itself, on a running block. -/
def Session.applyRunning (h : Session) : HostOp → HostResult
  | .load bytes => h.load bytes
  | .cycle r => h.cycle r
  | .tick => h.answer h.block.tick .done
  | .setPressed k => h.key k h.block.setPressed
  | .release k => h.key k h.block.release
  | .readFrame => h.answer h.block.afterFrameRead (.frame h.block.frame)
  | .getPixel r c => h.point r c fun r' c' => (h.block, .pixel (h.block.pixel r' c'))
  | .setPixel r c lit => h.point r c fun r' c' => (h.block.withPixel r' c' lit, .done)

/-- One operation of the host: none is accepted after a fatal error (R89, R250). -/
def Session.apply (h : Session) (op : HostOp) : HostResult :=
  match h.block.status with
  | .fatal k => .fault (.stopped k)
  | .running => h.applyRunning op

/-- A run: a finite sequence of host operations, in the host's order (R277, R279). -/
def Session.run : Session → List HostOp → Host.Outcome Session Fault Refusal
  | h, [] => .next h
  | h, op :: ops =>
    match h.apply op with
    | .next (h', _) => h'.run ops
    | .fault f => .fault f
    | .refused r => .refused r

end Sys2Proof.Machine
end

