-- ==== Sys2Proof/Safety.lean ====
section
/-! DEFINITION. The terms claims use: the invariant of a good state, what a step leaves unchanged, the start of a run
and its end, and where a sprite falls on the screen. -/

namespace Sys2Proof.Machine

/-! ## The invariant -/

/-- What every state that construction and the host's operations can reach satisfies: memory is in its canonical form,
the font lies where R6 wants it, `PC` is at most 0x11FF (R22), a return address is at most 0x1000 (R103), and at most
one key is pressed (R33). That `SP` is at most 16 (R25) is in its type. -/
structure State.Inv (s : State) : Prop where
  memory : Memory.wf s.cfg s.mem
  font : s.cfg.ok
  pc : s.pc.toNat ≤ 0x11FF
  slots : ∀ k : Fin 16, s.stack[k.val].toNat ≤ 0x1000
  oneKey : ∀ j k : Fin 16, s.keys.getLsbD j = true → s.keys.getLsbD k = true → j = k

/-! ## What is left unchanged -/

/-- The parts of the state, each as a reader sees it: memory byte by byte, the screen row by row. -/
inductive Part where
  | reg (r : Reg)
  | index
  | pc
  | slot (k : Fin 16)
  | sp
  | delay
  | sound
  | row (r : Fin 32)
  | snapshot
  | keys
  | status
  | byte (a : Nat)
  | config
  | draws
  deriving DecidableEq, Repr

/-- The part reads the same in both states. -/
def Part.same (s t : State) : Part → Prop
  | .reg r => t.reg r = s.reg r
  | .index => t.i = s.i
  | .pc => t.pc = s.pc
  | .slot k => t.stack[k.val] = s.stack[k.val]
  | .sp => t.sp = s.sp
  | .delay => t.dt = s.dt
  | .sound => t.st = s.st
  | .row r => t.fb[r.val] = s.fb[r.val]
  | .snapshot => t.prev = s.prev
  | .keys => t.keys = s.keys
  | .status => t.status = s.status
  | .byte a => t.readByte a = s.readByte a
  | .config => t.cfg = s.cfg
  | .draws => t.draws = s.draws

/-- Everything but the listed parts is unchanged from `s` to `t`: the frame of an instruction. -/
def UnchangedBut (parts : List Part) (s t : State) : Prop := ∀ p : Part, p ∉ parts → p.same s t

/-- All rows of the screen. -/
def screenRows : List Part := (List.finRange 32).map Part.row

/-- The `n` bytes of memory from `a` up. -/
def bytesFrom (a n : Nat) : List Part := (List.range n).map fun k => Part.byte (a + k)

/-- The general registers V0..Vx. -/
def regsThrough (x : Reg) : List Part := ((List.finRange 16).filter (· ≤ x)).map Part.reg

/-! ## Runs -/

/-- The start of a run of a program (R294): the block just constructed, one successful load, no cycle. -/
def Launched (c : Config) (image : List Byte) (h : Session) : Prop :=
  (Session.construct c).apply (.load image) = .next (h, .loadOk)

/-- A cycle would change nothing (R279). -/
def Halted (s : State) : Prop := step s = .next s

/-- Stopped by a fatal error: never a successful end (R279). -/
def Stopped (s : State) : Prop := ∃ k, s.status = .fatal k

/-- The next state of an outcome changed by a function, a fault or refusal kept. -/
def mapNext (f : State → State) : Result → Result
  | .next s => .next (f s)
  | .fault r => .fault r
  | .refused r => .refused r

/-- What an outcome leaves in the block: the environment's side of the state put aside. -/
def blockOf : Result → Host.Outcome Block Fault Refusal
  | .next s => .next s.toBlock
  | .fault r => .fault r
  | .refused r => .refused r

/-! ## Sprites, pixel by pixel -/

/-- A sprite position `p` falls on position `q` of an edge `size` long: it is `q`, or with wrapping `q` modulo the size
(Glossary "wrap", R193, R194, R197). -/
def fallsOn (wrap : Bool) (size p q : Nat) : Prop := p = q ∨ (wrap = true ∧ p % size = q)

/-- Some 1 bit of the `n` sprite bytes at `I` falls on pixel (row `r`, column `c`), the sprite's first row at `cy` and its
leftmost column, the most significant bit, at `cx` (R192, R193, R194). -/
def SpriteCovers (s : State) (cx cy : Byte) (n : Nat) (r : Fin 32) (c : Fin 64) : Prop :=
  ∃ k j, k < n ∧ j < 8 ∧ (s.readByte (s.dataAddress + k)).getLsbD (7 - j) = true ∧
    fallsOn s.cfg.wrapY 32 (cy.toNat + k) r.val ∧ fallsOn s.cfg.wrapX 64 (cx.toNat + j) c.val

end Sys2Proof.Machine
end

