-- ==== Sys2Proof/Certificates/Slice0/Obligations.lean ====
section
/-! DEFINITION. The statements for the provers. A statement about an instruction gives its encoding, that it completes
and in what state, and its frame. "The spec's decision Dn" marks what 92_eei_decisions.md chose where its source is
silent. In every `decode` clause the bit pattern is decision D8, and `00E0` alone the source's (log entry 4). That an
instruction writes only what its row names, which the frames say, is decision D12 where no rule says more (log entry
15). -/

open Sys2Proof Sys2Proof.Machine

/-! ## Encoding and decoding -/

/-- Every well-formed instruction's word decodes to that instruction, every operand at every value (R76, R77; the bit
patterns are the spec's decisions D8 and D9). -/
def Obligations.DecodeOfEncode : Prop :=
  ∀ i : Instr, i.wellFormed = true → decode (encode i) = some i

/-- A word that decodes is the encoding of the well-formed instruction it decodes to: each word has one meaning
(R77). -/
def Obligations.EncodeOfDecode : Prop :=
  ∀ (w : Word) (i : Instr), decode w = some i → i.wellFormed = true ∧ encode i = w

/-- A word decodes exactly when it matches a row of R76, and no word matches two of the 34 rows. -/
def Obligations.DecodeMatchesExactlyTheRows : Prop :=
  opcodeRows.length = 34 ∧
  (∀ w : Word, decode w = none ↔ ∀ r ∈ opcodeRows, ¬ r.matchesWord w) ∧
  opcodeRows.Pairwise fun r q => ∀ w : Word, ¬ (r.matchesWord w ∧ q.matchesWord w)

/-- The words that decode to nothing are those of R78's six classes. -/
def Obligations.InvalidWordsAreTheSixClasses : Prop :=
  ∀ a b c d : Nibble, decode (a ++ b ++ c ++ d) = none ↔
    (a = 0x0 ∧ ¬ (b = 0 ∧ c = 0xE ∧ (d = 0x0 ∨ d = 0xE))) ∨
    (a = 0x5 ∧ d ≠ 0) ∨
    (a = 0x8 ∧ d ∈ [0x8#4, 0x9#4, 0xA#4, 0xB#4, 0xC#4, 0xD#4, 0xF#4]) ∨
    (a = 0x9 ∧ d ≠ 0) ∨
    (a = 0xE ∧ c ++ d ∉ [0x9E#8, 0xA1#8]) ∨
    (a = 0xF ∧ c ++ d ∉ [0x07#8, 0x0A#8, 0x15#8, 0x18#8, 0x1E#8, 0x29#8, 0x33#8, 0x55#8, 0x65#8])

/-- Words written out from the encodings of R76 decode to what they stand for. -/
def Obligations.WrittenWordsDecode : Prop :=
  decode 0x00E0 = some .clearScreen ∧ decode 0x1234 = some (.jump 0x234) ∧
  decode 0x8316 = some (.shrReg 3 1) ∧ decode 0xA300 = some (.loadIndex 0x300) ∧
  decode 0xD125 = some (.draw 1 2 5) ∧ decode 0xE1A1 = some (.skipIfNotPressed 1) ∧
  decode 0xF265 = some (.loadRegs 2) ∧ decode 0x0123 = none ∧ decode 0x5121 = none ∧ decode 0xE19F = none

/-! ## The cycle -/

/-- A step runs the decoded instruction: on a running machine whose two bytes at `PC` exist and decode to `i`, a step is
`exec i`, with nothing around it (R86; that `PC` needs no alignment is D2). -/
def Obligations.StepRunsTheDecodedInstruction : Prop :=
  ∀ (s : State) (i : Instr), s.status = .running → s.pc.toNat + 1 ≤ 0xFFF →
    decode (s.readByte s.pc.toNat ++ s.readByte (s.pc.toNat + 1)) = some i → step s = exec i s

/-- A fetched word that decodes to nothing raises InvalidOpcode with that word, and only the status changes (R78, R252;
the precise fault is D3). -/
def Obligations.StepOnInvalidWordRaises : Prop :=
  ∀ s : State, s.status = .running → s.pc.toNat + 1 ≤ 0xFFF →
    decode (s.readByte s.pc.toNat ++ s.readByte (s.pc.toNat + 1)) = none →
    step s = .next { s with
      status := .fatal (.invalidOpcode (s.readByte s.pc.toNat ++ s.readByte (s.pc.toNat + 1))) }

/-- A fetch past 0xFFF raises MemoryOutOfBounds with the lowest out-of-range address (R86; D3). -/
def Obligations.StepOnFetchPastMemoryRaises : Prop :=
  ∀ s : State, s.status = .running →
    (0xFFF < s.pc.toNat → step s = .next { s with status := .fatal (.memoryOutOfBounds s.pc.toNat) }) ∧
    (s.pc.toNat = 0xFFF → step s = .next { s with status := .fatal (.memoryOutOfBounds 0x1000) })

/-- The status is running at reset, and once it is fatal no cycle and no host operation has a move (R34; that none is
accepted is D22). -/
def Obligations.FatalStatusIsForGood : Prop :=
  (∀ c : Config, (State.construct c).status = .running) ∧
  (∀ (s : State) (k : FatalKind), s.status = .fatal k → step s = .fault (.stopped k)) ∧
  ∀ (h : Session) (op : HostOp) (k : FatalKind), h.block.status = .fatal k → h.apply op = .fault (.stopped k)

/-- Fatal errors are precise: a cycle of a running machine that ends with a fatal status has changed nothing else
(R259; D3). -/
def Obligations.FatalErrorsArePrecise : Prop :=
  ∀ (s t : State) (k : FatalKind), s.status = .running → step s = .next t → t.status = .fatal k →
    t = { s with status := .fatal k }

/-- Every cycle of a running machine answers a next state: no instruction is refused and none gets stuck. -/
def Obligations.RunningMachineAlwaysSteps : Prop :=
  ∀ s : State, s.status = .running → ∃ t, step s = .next t

/-- Which instruction raises which kind, and exactly when (R252 to R257): StackOverflow only `call` at SP = 16,
StackUnderflow only `return` at SP = 0, InvalidCharacter only `load I,font(Vx)` with Vx above 15, MemoryOutOfBounds only
the four memory instructions where they run past 0xFFF (D3), the other two kinds no instruction. -/
def Obligations.EachFatalKindHasItsInstructions : Prop :=
  ∀ (i : Instr) (s t : State), s.status = .running → exec i s = .next t →
    (t.status = .fatal .stackOverflow ↔ s.sp.val = 16 ∧ ∃ nnn, i = .call nnn) ∧
    (t.status = .fatal .stackUnderflow ↔ s.sp.val = 0 ∧ i = .ret) ∧
    (∀ b, t.status = .fatal (.invalidCharacter b) ↔ 15 < b.toNat ∧ ∃ x, i = .loadFont x ∧ s.reg x = b) ∧
    (∀ a, t.status = .fatal (.memoryOutOfBounds a) ↔ a = 0x1000 ∧
      ((∃ x y n, i = .draw x y n ∧ 0 < n ∧ 0xFFF < s.dataAddress + n - 1) ∨
        (∃ x, i = .storeBcd x ∧ 0xFFF < s.dataAddress + 2) ∨
        ∃ x : Reg, (i = .storeRegs x ∨ i = .loadRegs x) ∧ 0xFFF < s.dataAddress + x.val)) ∧
    (∀ w, t.status ≠ .fatal (.invalidOpcode w)) ∧ (∀ r c, t.status ≠ .fatal (.pixelOutOfBounds r c))

/-! ## Invariants -/

/-- The state after construction meets the invariant, for every configuration whose font fits. That no key is pressed and
the stack slots hold zero is the spec's decision D5 (log entry 1), that memory lists nothing the model's form of its reset
contents, decision D4 (log entries 1 and 11); `PC` = 0x200 is the source's (R22). -/
def Obligations.ConstructionMeetsTheInvariant : Prop :=
  (∀ c : Config, c.ok → (State.construct c).Inv) ∧ State.reset.Inv

/-- Every step keeps the invariant: memory in its canonical form, `PC` at most 0x11FF, return addresses at most 0x1000,
at most one key pressed. -/
def Obligations.StepKeepsTheInvariant : Prop :=
  ∀ s t : State, s.Inv → step s = .next t → t.Inv

/-- Every run of host operations (loads, cycles, ticks, keys, reads, pixels, in any order) keeps the invariant (R277). -/
def Obligations.HostRunsKeepTheInvariant : Prop :=
  ∀ (ops : List HostOp) (h h' : Session), h.block.Inv → h.run ops = .next h' → h'.block.Inv

/-- What construction leaves in every part of the state (R290, R291): `PC` 0x200 and SP 0 are the source's, `status`
running is derived (R34); the zeros, the dark screen, the font place and bytes are the spec's decisions D4 to D7 and D19
(log entries 1 and 5); the counter `draws` = 0 is the model's own choice and no state of the block (log entry 3). -/
def Obligations.ConstructionLeavesResetValues : Prop :=
  ∀ c : Config, c.ok →
    (State.construct c).pc = 0x200 ∧ (State.construct c).sp = 0 ∧ (State.construct c).cfg = c ∧
    (State.construct c).status = .running ∧ (State.construct c).draws = 0 ∧
    (∀ r, (State.construct c).reg r = 0) ∧ (State.construct c).i = 0 ∧
    (State.construct c).dt = 0 ∧ (State.construct c).st = 0 ∧ (State.construct c).keys = 0 ∧
    (∀ k : Fin 16, (State.construct c).stack[k.val] = 0) ∧
    (∀ r : Fin 32, (State.construct c).fb[r.val] = 0 ∧ (State.construct c).prev[r.val] = 0) ∧
    (∀ (h : Fin 16) (j : Fin 5),
      (State.construct c).readByte (c.fontBase.toNat + 5 * h.val + j.val) = (c.fontGlyphs[h.val])[j.val]) ∧
    ∀ a, a < c.fontBase.toNat ∨ c.fontBase.toNat + 80 ≤ a → (State.construct c).readByte a = 0

/-! ## Whole-machine rules -/

/-- `I`, the timers and the draw counter: `I` is written only by the three instructions of R23, `DT` and `ST` only by
their loads (R26, R27). The clause on `draws` is about the model's own counter, which carries the free byte of decision
D21 and no rule gives (log entry 3): only `random` moves it. -/
def Obligations.WritersOfIndexAndTimers : Prop :=
  ∀ (i : Instr) (s t : State), exec i s = .next t →
    (t.i ≠ s.i → (∃ nnn, i = .loadIndex nnn) ∨ ∃ x, i = .addIndex x ∨ i = .loadFont x) ∧
    (t.dt ≠ s.dt → ∃ x, i = .setDelay x) ∧ (t.st ≠ s.st → ∃ x, i = .setSound x) ∧
    (t.draws ≠ s.draws → ∃ x kk, i = .random x kk)

/-- Memory, screen and stack: only `store-BCD` and `store-regs` write memory (R56), only `clear-screen` and `draw` the
screen (R30), only `call` a stack slot, only `call` and `return` move `SP` (R24, R25). -/
def Obligations.WritersOfMemoryScreenAndStack : Prop :=
  ∀ (i : Instr) (s t : State), exec i s = .next t →
    ((∃ a, t.readByte a ≠ s.readByte a) → ∃ x, i = .storeBcd x ∨ i = .storeRegs x) ∧
    ((∃ r : Fin 32, t.fb[r.val] ≠ s.fb[r.val]) → i = .clearScreen ∨ ∃ x y n, i = .draw x y n) ∧
    ((∃ k : Fin 16, t.stack[k.val] ≠ s.stack[k.val]) → ∃ nnn, i = .call nnn) ∧
    (t.sp ≠ s.sp → i = .ret ∨ ∃ nnn, i = .call nnn)

/-- No cycle changes the key mask (R33), the retained snapshot (R32) or the construction parameters, the wrap flags
among them (R31). -/
def Obligations.CyclesKeepHostOwnedState : Prop :=
  ∀ s t : State, step s = .next t → t.keys = s.keys ∧ t.prev = s.prev ∧ t.cfg = s.cfg

/-- Who writes VF (R21): the six flag writers, and otherwise only an instruction whose destination is VF. A flag writer
whose destination is not VF leaves 0 or 1 there whenever it completes (that an instruction writes only what its row
names is D12). -/
def Obligations.WritersOfTheFlagRegister : Prop :=
  ∀ (i : Instr) (s t : State), s.status = .running → exec i s = .next t →
    (t.reg VF ≠ s.reg VF →
      (∃ x y, i = .addReg x y ∨ i = .subReg x y ∨ i = .shrReg x y ∨ i = .subnReg x y ∨ i = .shlReg x y) ∨
      (∃ x y n, i = .draw x y n) ∨ (∃ kk, i = .loadImm VF kk ∨ i = .addImm VF kk ∨ i = .random VF kk) ∨
      (∃ y, i = .loadReg VF y ∨ i = .orReg VF y ∨ i = .andReg VF y ∨ i = .xorReg VF y) ∨
      i = .readDelay VF ∨ i = .waitKey VF ∨ i = .loadRegs VF) ∧
    (∀ x y, x ≠ VF →
      i = .addReg x y ∨ i = .subReg x y ∨ i = .shrReg x y ∨ i = .subnReg x y ∨ i = .shlReg x y →
      t.reg VF = 0 ∨ t.reg VF = 1) ∧
    (∀ x y n, i = .draw x y n → t.status = .running → t.reg VF = 0 ∨ t.reg VF = 1)

/-- No cycle reads the retained snapshot: two machines that differ only in it go on differing only in it (R32). -/
def Obligations.CyclesIgnoreTheSnapshot : Prop :=
  ∀ (s : State) (p : Vector PixelRow 32), step { s with prev := p } = mapNext (fun t => { t with prev := p }) (step s)

/-! ## Control transfer -/

/-- `return` (R101): the popped slot's value goes to `PC`, `SP` falls by one, the slot keeps its value. That nothing is
added to the popped value is D10. -/
def Obligations.ReturnPopsThePC : Prop :=
  decode 0x00EE = some .ret ∧
  ∀ (s : State) (k : Fin 16), s.sp.val = k.val + 1 →
    ∃ t, exec .ret s = .next t ∧ t.sp.val = k.val ∧ t.pc = s.stack[k.val] ∧ UnchangedBut [.pc, .sp] s t

/-- `call nnn` (R103): below 16 nested calls, `PC + 2` goes to `stack[SP]`, `SP` rises by one and `PC` becomes
0x200 + nnn. The value pushed is D10. -/
def Obligations.CallPushesTheReturnAddress : Prop :=
  ∀ nnn : Addr, decode (0x2#4 ++ nnn) = some (.call nnn) ∧
  ∀ (s : State) (k : Fin 16), s.sp.val = k.val →
    ∃ t, exec (.call nnn) s = .next t ∧ t.stack[k.val] = s.pc + 2 ∧ t.sp.val = k.val + 1 ∧
      t.pc.toNat = 0x200 + nnn.toNat ∧ UnchangedBut [.pc, .sp, .slot k] s t

/-- A push at SP = 16 and a pop at SP = 0 are fatal and change nothing but the status (R255, R256; D3). -/
def Obligations.StackBoundsAreFatal : Prop :=
  ∀ s : State,
    (∀ nnn, s.sp.val = 16 → exec (.call nnn) s = .next { s with status := .fatal .stackOverflow }) ∧
    (s.sp.val = 0 → exec .ret s = .next { s with status := .fatal .stackUnderflow })

/-- A `call` and the `return` after it leave `PC` at the instruction after the call, `SP` as before, and everything else
but the slot used unchanged (V-SRC-6, R101, R103). -/
def Obligations.CallThenReturnComesBack : Prop :=
  ∀ (s : State) (nnn : Addr) (k : Fin 16), s.sp.val = k.val →
    ∃ t u, exec (.call nnn) s = .next t ∧ exec .ret t = .next u ∧
      u.pc = s.pc + 2 ∧ u.sp = s.sp ∧ UnchangedBut [.pc, .slot k] s u

/-- `jump nnn` sets `PC` to 0x200 + nnn and changes nothing else (R102). -/
def Obligations.JumpAddsTheBaseOffset : Prop :=
  ∀ nnn : Addr, decode (0x1#4 ++ nnn) = some (.jump nnn) ∧
  ∀ s : State, ∃ t, exec (.jump nnn) s = .next t ∧ t.pc.toNat = 0x200 + nnn.toNat ∧ UnchangedBut [.pc] s t

/-- `jump V0,nnn` sets `PC` to V0 + nnn, with no base offset, and changes nothing else (R108; that the sum does not wrap
is D3). -/
def Obligations.JumpV0AddsNoOffset : Prop :=
  ∀ nnn : Addr, decode (0xB#4 ++ nnn) = some (.jumpV0 nnn) ∧
  ∀ s : State, ∃ t, exec (.jumpV0 nnn) s = .next t ∧ t.pc.toNat = (s.reg 0).toNat + nnn.toNat ∧ UnchangedBut [.pc] s t

/-- `skip-eq Vx,kk` and `skip-ne Vx,kk` skip the next word exactly on equality and on inequality, and change only `PC`
(R104, R105). -/
def Obligations.SkipsComparingWithAByte : Prop :=
  ∀ (x : Reg) (kk : Byte),
    decode (0x3#4 ++ BitVec.ofNat 4 x.val ++ kk) = some (.skipEqImm x kk) ∧
    decode (0x4#4 ++ BitVec.ofNat 4 x.val ++ kk) = some (.skipNeImm x kk) ∧
    ∀ s : State,
      (∃ t, exec (.skipEqImm x kk) s = .next t ∧ UnchangedBut [.pc] s t ∧
        t.pc = if s.reg x = kk then s.pc + 4 else s.pc + 2) ∧
      (∃ t, exec (.skipNeImm x kk) s = .next t ∧ UnchangedBut [.pc] s t ∧
        t.pc = if s.reg x = kk then s.pc + 2 else s.pc + 4)

/-- `skip-eq Vx,Vy` and `skip-ne Vx,Vy` skip the next word exactly on equality and on inequality, and change only `PC`
(R106, R107). -/
def Obligations.SkipsComparingRegisters : Prop :=
  ∀ x y : Reg,
    decode (0x5#4 ++ BitVec.ofNat 4 x.val ++ BitVec.ofNat 4 y.val ++ 0x0#4) = some (.skipEqReg x y) ∧
    decode (0x9#4 ++ BitVec.ofNat 4 x.val ++ BitVec.ofNat 4 y.val ++ 0x0#4) = some (.skipNeReg x y) ∧
    (∀ n : Nibble, n ≠ 0 → decode (0x5#4 ++ BitVec.ofNat 4 x.val ++ BitVec.ofNat 4 y.val ++ n) = none ∧
      decode (0x9#4 ++ BitVec.ofNat 4 x.val ++ BitVec.ofNat 4 y.val ++ n) = none) ∧
    ∀ s : State,
      (∃ t, exec (.skipEqReg x y) s = .next t ∧ UnchangedBut [.pc] s t ∧
        t.pc = if s.reg x = s.reg y then s.pc + 4 else s.pc + 2) ∧
      (∃ t, exec (.skipNeReg x y) s = .next t ∧ UnchangedBut [.pc] s t ∧
        t.pc = if s.reg x = s.reg y then s.pc + 2 else s.pc + 4)

/-! ## Loads, arithmetic, logic, shifts and random -/

/-- `load Vx,kk` and `load Vx,Vy`: the register takes the value; nothing else but `PC` changes (R131, R133). -/
def Obligations.RegisterLoads : Prop :=
  ∀ (x y : Reg) (kk : Byte),
    decode (0x6#4 ++ BitVec.ofNat 4 x.val ++ kk) = some (.loadImm x kk) ∧
    decode (0x8#4 ++ BitVec.ofNat 4 x.val ++ BitVec.ofNat 4 y.val ++ 0x0#4) = some (.loadReg x y) ∧
    ∀ s : State,
      (∃ t, exec (.loadImm x kk) s = .next t ∧ t.reg x = kk ∧ t.pc = s.pc + 2 ∧ UnchangedBut [.pc, .reg x] s t) ∧
      (∃ t, exec (.loadReg x y) s = .next t ∧ t.reg x = s.reg y ∧ t.pc = s.pc + 2 ∧ UnchangedBut [.pc, .reg x] s t)

/-- `add Vx,kk`: the sum modulo 256, no carry reported: VF keeps its value unless it is the destination (R132). -/
def Obligations.AddByteWrapsWithoutCarry : Prop :=
  ∀ (x : Reg) (kk : Byte), decode (0x7#4 ++ BitVec.ofNat 4 x.val ++ kk) = some (.addImm x kk) ∧
  ∀ s : State, ∃ t, exec (.addImm x kk) s = .next t ∧
    (t.reg x).toNat = ((s.reg x).toNat + kk.toNat) % 256 ∧ t.pc = s.pc + 2 ∧ UnchangedBut [.pc, .reg x] s t

/-- `or`, `and`, `xor`: bit by bit, VF not written as a flag (R134 to R136; that VF is kept is D12). -/
def Obligations.LogicIsBitwise : Prop :=
  ∀ x y : Reg,
    decode (0x8#4 ++ BitVec.ofNat 4 x.val ++ BitVec.ofNat 4 y.val ++ 0x1#4) = some (.orReg x y) ∧
    decode (0x8#4 ++ BitVec.ofNat 4 x.val ++ BitVec.ofNat 4 y.val ++ 0x2#4) = some (.andReg x y) ∧
    decode (0x8#4 ++ BitVec.ofNat 4 x.val ++ BitVec.ofNat 4 y.val ++ 0x3#4) = some (.xorReg x y) ∧
    ∀ s : State,
      (∃ t, exec (.orReg x y) s = .next t ∧ t.pc = s.pc + 2 ∧ UnchangedBut [.pc, .reg x] s t ∧
        ∀ k, (t.reg x).getLsbD k = ((s.reg x).getLsbD k || (s.reg y).getLsbD k)) ∧
      (∃ t, exec (.andReg x y) s = .next t ∧ t.pc = s.pc + 2 ∧ UnchangedBut [.pc, .reg x] s t ∧
        ∀ k, (t.reg x).getLsbD k = ((s.reg x).getLsbD k && (s.reg y).getLsbD k)) ∧
      (∃ t, exec (.xorReg x y) s = .next t ∧ t.pc = s.pc + 2 ∧ UnchangedBut [.pc, .reg x] s t ∧
        ∀ k, (t.reg x).getLsbD k = ((s.reg x).getLsbD k ^^ (s.reg y).getLsbD k))

/-- `add Vx,Vy`: the low byte of the sum, and VF 1 exactly when the sum exceeds 255 (R137). With x = F the register ends
with the low byte (R130, D11). -/
def Obligations.AddSetsCarry : Prop :=
  ∀ x y : Reg, decode (0x8#4 ++ BitVec.ofNat 4 x.val ++ BitVec.ofNat 4 y.val ++ 0x4#4) = some (.addReg x y) ∧
  ∀ s : State, ∃ t, exec (.addReg x y) s = .next t ∧
    (t.reg x).toNat = ((s.reg x).toNat + (s.reg y).toNat) % 256 ∧
    (x ≠ VF → t.reg VF = if 255 < (s.reg x).toNat + (s.reg y).toNat then 1 else 0) ∧
    t.pc = s.pc + 2 ∧ UnchangedBut [.pc, .reg x, .reg VF] s t

/-- `sub Vx,Vy` and `subn Vx,Vy`: the difference modulo 256, and VF 1 exactly when the first operand is strictly greater,
so 0 on equal operands (R138, R140; conflict C2). With x = F the register ends with the difference (R130, D11). -/
def Obligations.SubtractionsSetNoBorrow : Prop :=
  ∀ x y : Reg,
    decode (0x8#4 ++ BitVec.ofNat 4 x.val ++ BitVec.ofNat 4 y.val ++ 0x5#4) = some (.subReg x y) ∧
    decode (0x8#4 ++ BitVec.ofNat 4 x.val ++ BitVec.ofNat 4 y.val ++ 0x7#4) = some (.subnReg x y) ∧
    ∀ s : State,
      (∃ t, exec (.subReg x y) s = .next t ∧
        ((t.reg x).toNat : Int) = ((s.reg x).toNat - (s.reg y).toNat : Int) % 256 ∧
        (x ≠ VF → t.reg VF = if (s.reg y).toNat < (s.reg x).toNat then 1 else 0) ∧
        t.pc = s.pc + 2 ∧ UnchangedBut [.pc, .reg x, .reg VF] s t) ∧
      (∃ t, exec (.subnReg x y) s = .next t ∧
        ((t.reg x).toNat : Int) = ((s.reg y).toNat - (s.reg x).toNat : Int) % 256 ∧
        (x ≠ VF → t.reg VF = if (s.reg x).toNat < (s.reg y).toNat then 1 else 0) ∧
        t.pc = s.pc + 2 ∧ UnchangedBut [.pc, .reg x, .reg VF] s t)

/-- `shr Vx,Vy` and `shl Vx,Vy` shift Vy, not Vx, by one; VF takes the bit shifted out (R139, R141). With x = F the
register ends with the shifted value (R130, D11). -/
def Obligations.ShiftsTakeTheirSourceFromVy : Prop :=
  ∀ x y : Reg,
    decode (0x8#4 ++ BitVec.ofNat 4 x.val ++ BitVec.ofNat 4 y.val ++ 0x6#4) = some (.shrReg x y) ∧
    decode (0x8#4 ++ BitVec.ofNat 4 x.val ++ BitVec.ofNat 4 y.val ++ 0xE#4) = some (.shlReg x y) ∧
    ∀ s : State,
      (∃ t, exec (.shrReg x y) s = .next t ∧ (t.reg x).toNat = (s.reg y).toNat / 2 ∧
        (x ≠ VF → (t.reg VF).toNat = (s.reg y).toNat % 2) ∧
        t.pc = s.pc + 2 ∧ UnchangedBut [.pc, .reg x, .reg VF] s t) ∧
      (∃ t, exec (.shlReg x y) s = .next t ∧ (t.reg x).toNat = (s.reg y).toNat * 2 % 256 ∧
        (x ≠ VF → (t.reg VF).toNat = (s.reg y).toNat / 128) ∧
        t.pc = s.pc + 2 ∧ UnchangedBut [.pc, .reg x, .reg VF] s t)

/-- `random Vx,kk`: the byte drawn, whatever it is, AND kk; the next draw is another one (R142; the free draw is D21 and
the counter `draws` is the model's own, log entry 3). -/
def Obligations.RandomMasksAFreeByte : Prop :=
  ∀ (x : Reg) (kk : Byte), decode (0xC#4 ++ BitVec.ofNat 4 x.val ++ kk) = some (.random x kk) ∧
  ∀ s : State, ∃ t, exec (.random x kk) s = .next t ∧
    (∀ k, (t.reg x).getLsbD k = ((Config.drawByte s.draws).getLsbD k && kk.getLsbD k)) ∧
    (kk = 0 → t.reg x = 0) ∧ t.draws = s.draws + 1 ∧ t.pc = s.pc + 2 ∧ UnchangedBut [.pc, .reg x, .draws] s t

/-! ## Index register and memory -/

/-- `load I,nnn` sets `I` to nnn, with no base offset (R161). -/
def Obligations.LoadIndexAddsNoOffset : Prop :=
  ∀ nnn : Addr, decode (0xA#4 ++ nnn) = some (.loadIndex nnn) ∧
  ∀ s : State, ∃ t, exec (.loadIndex nnn) s = .next t ∧ t.i = nnn ∧ t.pc = s.pc + 2 ∧ UnchangedBut [.pc, .index] s t

/-- `add I,Vx` adds modulo 0x1000 and writes no flag (R162; the modulus is D28). -/
def Obligations.AddIndexWrapsAtTwelveBits : Prop :=
  ∀ x : Reg, decode (0xF#4 ++ BitVec.ofNat 4 x.val ++ 0x1E#8) = some (.addIndex x) ∧
  ∀ s : State, ∃ t, exec (.addIndex x) s = .next t ∧
    t.i.toNat = (s.i.toNat + (s.reg x).toNat) % 0x1000 ∧ t.pc = s.pc + 2 ∧ UnchangedBut [.pc, .index] s t

/-- `load I,font(Vx)`: with Vx at most 15, `I` is the glyph's address FONT_BASE + 5·Vx; above 15 it raises
InvalidCharacter with Vx and changes nothing else (R163, R253; the layout is D6). -/
def Obligations.LoadFontPointsAtTheGlyph : Prop :=
  ∀ x : Reg, decode (0xF#4 ++ BitVec.ofNat 4 x.val ++ 0x29#8) = some (.loadFont x) ∧
  ∀ s : State,
    (s.cfg.ok → (s.reg x).toNat ≤ 15 → ∃ t, exec (.loadFont x) s = .next t ∧
      t.i.toNat = s.cfg.fontBase.toNat + 5 * (s.reg x).toNat ∧ t.pc = s.pc + 2 ∧ UnchangedBut [.pc, .index] s t) ∧
    (15 < (s.reg x).toNat →
      exec (.loadFont x) s = .next { s with status := .fatal (.invalidCharacter (s.reg x)) })

/-- `store-BCD Vx`: hundreds, tens and units go to `I`, `I+1` and `I+2`; nothing else but `PC` changes (R164). -/
def Obligations.StoreBcdWritesThreeDigits : Prop :=
  ∀ x : Reg, decode (0xF#4 ++ BitVec.ofNat 4 x.val ++ 0x33#8) = some (.storeBcd x) ∧
  ∀ s : State, s.dataAddress + 2 ≤ 0xFFF → ∃ t, exec (.storeBcd x) s = .next t ∧
    (t.readByte s.dataAddress).toNat = (s.reg x).toNat / 100 ∧
    (t.readByte (s.dataAddress + 1)).toNat = (s.reg x).toNat / 10 % 10 ∧
    (t.readByte (s.dataAddress + 2)).toNat = (s.reg x).toNat % 10 ∧
    t.pc = s.pc + 2 ∧ UnchangedBut (.pc :: bytesFrom s.dataAddress 3) s t

/-- `store-regs Vx`: V0..Vx go to `I` and up; nothing else but `PC` changes (R165; that `I` is kept is D12). -/
def Obligations.StoreRegsWritesThroughVx : Prop :=
  ∀ x : Reg, decode (0xF#4 ++ BitVec.ofNat 4 x.val ++ 0x55#8) = some (.storeRegs x) ∧
  ∀ s : State, s.dataAddress + x.val ≤ 0xFFF → ∃ t, exec (.storeRegs x) s = .next t ∧
    (∀ k : Reg, k ≤ x → t.readByte (s.dataAddress + k.val) = s.reg k) ∧
    t.pc = s.pc + 2 ∧ UnchangedBut (.pc :: bytesFrom s.dataAddress (x.val + 1)) s t

/-- `load-regs Vx`: the bytes at `I` and up go to V0..Vx; nothing else but `PC` changes (R166; that `I` is kept is
D12). -/
def Obligations.LoadRegsReadsThroughVx : Prop :=
  ∀ x : Reg, decode (0xF#4 ++ BitVec.ofNat 4 x.val ++ 0x65#8) = some (.loadRegs x) ∧
  ∀ s : State, s.dataAddress + x.val ≤ 0xFFF → ∃ t, exec (.loadRegs x) s = .next t ∧
    (∀ k : Reg, k ≤ x → t.reg k = s.readByte (s.dataAddress + k.val)) ∧
    t.pc = s.pc + 2 ∧ UnchangedBut (.pc :: regsThrough x) s t

/-- A `store-regs Vx` and a later `load-regs Vx` give V0..Vx their values back, whatever the registers and the rest of
the state hold by then, as long as `I` and the memory still read as after the store; the registers above Vx, `I` and
every byte are left alone by the load (R165, R166). -/
def Obligations.StoreThenLoadRestoresRegisters : Prop :=
  ∀ (x : Reg) (s t t' : State), s.dataAddress + x.val ≤ 0xFFF → exec (.storeRegs x) s = .next t →
    t'.i = t.i → (∀ a, t'.readByte a = t.readByte a) →
    ∃ u, exec (.loadRegs x) t' = .next u ∧ (∀ r ≤ x, u.reg r = s.reg r) ∧ (∀ r, x < r → u.reg r = t'.reg r) ∧
      u.i = s.i ∧ ∀ a, u.readByte a = t.readByte a

/-- An access of `draw`, `store-BCD`, `store-regs` or `load-regs` that runs past 0xFFF raises MemoryOutOfBounds with
0x1000, the lowest address that does not exist, and changes nothing else (R53; D3, D14). -/
def Obligations.AccessPastMemoryIsFatal : Prop :=
  ∀ s : State,
    (∀ x, 0xFFF < s.dataAddress + 2 →
      exec (.storeBcd x) s = .next { s with status := .fatal (.memoryOutOfBounds 0x1000) }) ∧
    (∀ x : Reg, 0xFFF < s.dataAddress + x.val →
      exec (.storeRegs x) s = .next { s with status := .fatal (.memoryOutOfBounds 0x1000) } ∧
      exec (.loadRegs x) s = .next { s with status := .fatal (.memoryOutOfBounds 0x1000) }) ∧
    (∀ (x y : Reg) (n : Nat), 0 < n → 0xFFF < s.dataAddress + n - 1 →
      exec (.draw x y n) s = .next { s with status := .fatal (.memoryOutOfBounds 0x1000) })

/-! ## Display -/

/-- `clear-screen` darkens every row and changes nothing else but `PC`: not VF, not the retained snapshot (R191). That it
keeps the rest of the state is decision D12 (log entry 15). -/
def Obligations.ClearScreenDarkensEveryRow : Prop :=
  decode 0x00E0 = some .clearScreen ∧
  ∀ s : State, ∃ t, exec .clearScreen s = .next t ∧ (∀ r : Fin 32, t.fb[r.val] = 0) ∧
    t.pc = s.pc + 2 ∧ UnchangedBut (.pc :: screenRows) s t

/-- `draw Vx,Vy,n`, pixel by pixel: with its bytes in range it flips exactly the pixels that a 1 bit of the sprite falls
on, wrapped or clipped as the flags say, and VF becomes 1 exactly when one of those was lit (R192 to R197; shifts past
the row are D13, n = 0 is D14). -/
def Obligations.DrawFlipsTheCoveredPixels : Prop :=
  ∀ (x y : Reg) (n : Nat), n ≤ 15 →
    decode (0xD#4 ++ BitVec.ofNat 4 x.val ++ BitVec.ofNat 4 y.val ++ BitVec.ofNat 4 n) = some (.draw x y n) ∧
    ∀ s : State, s.dataAddress + n ≤ 0x1000 → ∃ t, exec (.draw x y n) s = .next t ∧
      (∀ r c, t.pixel r c = true ↔
        ¬ (s.pixel r c = true ↔ SpriteCovers s (s.reg x) (s.reg y) n r c)) ∧
      ((∃ r c, s.pixel r c = true ∧ SpriteCovers s (s.reg x) (s.reg y) n r c) → t.reg VF = 1) ∧
      ((∀ r c, s.pixel r c = true → ¬ SpriteCovers s (s.reg x) (s.reg y) n r c) → t.reg VF = 0) ∧
      t.pc = s.pc + 2 ∧ UnchangedBut (.pc :: .reg VF :: screenRows) s t

/-- The row steps of `draw`: where a byte's bits go in a row (R193) and which row a sprite row goes to (R194), by the
rule's own shift amounts. -/
def Obligations.PlacementFollowsTheShiftAmount : Prop :=
  ∀ (c : Config) (b cx : Byte),
    (cx.toNat ≤ 56 → place c b cx = b.setWidth 64 <<< (56 - cx.toNat)) ∧
    (56 < cx.toNat → c.wrapX = true →
      ∀ j < 64, (place c b cx).getLsbD j = (b.setWidth 64).getLsbD ((j + (cx.toNat - 56)) % 64)) ∧
    (56 < cx.toNat → c.wrapX = false → (place c b cx).toNat = b.toNat / 2 ^ (cx.toNat - 56)) ∧
    ∀ t : Nat,
      (t ≤ 31 → (targetRow c t).map (·.val) = some t) ∧
      (31 < t → c.wrapY = true → (targetRow c t).map (·.val) = some (t % 32)) ∧
      (31 < t → c.wrapY = false → targetRow c t = none)

/-- Drawing the same sprite at the same place again restores the screen, and its collision flag is 1 exactly when the
first draw left a pixel of the sprite lit (R197). -/
def Obligations.DrawingTwiceRestoresTheScreen : Prop :=
  ∀ (x y : Reg) (n : Nat) (s t u : State), n ≤ 15 → s.status = .running → s.dataAddress + n ≤ 0x1000 →
    exec (.draw x y n) s = .next t → t.reg x = s.reg x → t.reg y = s.reg y → exec (.draw x y n) t = .next u →
    u.fb = s.fb ∧
    (u.reg VF = 1 ↔ ∃ r c, t.pixel r c = true ∧ SpriteCovers s (s.reg x) (s.reg y) n r c)

/-- Pixel get and set on the grid: get gives bit 63 − c of the row and changes nothing; set writes that pixel and no
other, so that a get of it gives the value set (R198, R199). Off the grid both raise PixelOutOfBounds, with nothing
written; that row and column are integers and that the reply beside the fatal status is the empty one is the model's
choice (log entry 25). -/
def Obligations.PointAccessReadsAndWritesOnePixel : Prop :=
  ∀ h : Session, h.block.status = .running →
    (∀ (r : Fin 32) (c : Fin 64),
      h.apply (.getPixel r.val c.val) = .next (h, .pixel (h.block.fb[r.val].getLsbD (63 - c.val))) ∧
      ∀ lit : Bool, ∃ t, h.apply (.setPixel r.val c.val lit) = .next ({ h with block := t }, .done) ∧
        t.pixel r c = lit ∧ (∀ r' c', (r', c') ≠ (r, c) → t.pixel r' c' = h.block.pixel r' c') ∧
        UnchangedBut [.row r] h.block t) ∧
    ∀ r c : Int, r < 0 ∨ 31 < r ∨ c < 0 ∨ 63 < c →
      (∀ op, op = .getPixel r c ∨ (∃ lit, op = .setPixel r c lit) →
        h.apply op = .next ({ h with block := { h.block with status := .fatal (.pixelOutOfBounds r c) } }, .done))

/-! ## Keys, timers and the host's operations -/

/-- The key skips: `skip-if-pressed` skips exactly when Vx names a pressed key, `skip-if-not-pressed` exactly when it does
not; a value above 15 names no key (R220 to R222; D15). -/
def Obligations.KeySkipsFollowTheMask : Prop :=
  ∀ x : Reg,
    decode (0xE#4 ++ BitVec.ofNat 4 x.val ++ 0x9E#8) = some (.skipIfPressed x) ∧
    decode (0xE#4 ++ BitVec.ofNat 4 x.val ++ 0xA1#8) = some (.skipIfNotPressed x) ∧
    ∀ s : State,
      (∃ t, exec (.skipIfPressed x) s = .next t ∧ UnchangedBut [.pc] s t ∧
        t.pc = if (s.reg x).toNat ≤ 15 ∧ s.keys.getLsbD (s.reg x).toNat = true then s.pc + 4 else s.pc + 2) ∧
      (∃ t, exec (.skipIfNotPressed x) s = .next t ∧ UnchangedBut [.pc] s t ∧
        t.pc = if (s.reg x).toNat ≤ 15 ∧ s.keys.getLsbD (s.reg x).toNat = true then s.pc + 2 else s.pc + 4)

/-- `load Vx,key`: with a key pressed, Vx takes the least pressed key's value and `PC` advances; with none, nothing at
all changes (R224; D17). -/
def Obligations.KeyWaitSpinsUntilAKeyIsPressed : Prop :=
  ∀ x : Reg, decode (0xF#4 ++ BitVec.ofNat 4 x.val ++ 0x0A#8) = some (.waitKey x) ∧
  ∀ s : State,
    (s.keys = 0 → exec (.waitKey x) s = .next s) ∧
    ∀ k : Fin 16, s.keys.getLsbD k.val = true → (∀ j : Fin 16, j < k → s.keys.getLsbD j.val = false) →
      ∃ t, exec (.waitKey x) s = .next t ∧ (t.reg x).toNat = k.val ∧ t.pc = s.pc + 2 ∧ UnchangedBut [.pc, .reg x] s t

/-- The timer instructions move a byte between Vx and a timer, and change nothing else but `PC` (R223, R225, R226). -/
def Obligations.TimerLoadsMoveOneByte : Prop :=
  ∀ x : Reg,
    decode (0xF#4 ++ BitVec.ofNat 4 x.val ++ 0x07#8) = some (.readDelay x) ∧
    decode (0xF#4 ++ BitVec.ofNat 4 x.val ++ 0x15#8) = some (.setDelay x) ∧
    decode (0xF#4 ++ BitVec.ofNat 4 x.val ++ 0x18#8) = some (.setSound x) ∧
    ∀ s : State,
      (∃ t, exec (.readDelay x) s = .next t ∧ t.reg x = s.dt ∧ t.pc = s.pc + 2 ∧ UnchangedBut [.pc, .reg x] s t) ∧
      (∃ t, exec (.setDelay x) s = .next t ∧ t.dt = s.reg x ∧ t.pc = s.pc + 2 ∧ UnchangedBut [.pc, .delay] s t) ∧
      (∃ t, exec (.setSound x) s = .next t ∧ t.st = s.reg x ∧ t.pc = s.pc + 2 ∧ UnchangedBut [.pc, .sound] s t)

/-- The tick counts each non-zero timer down by one, leaves a zero one alone, and changes nothing else (R274). -/
def Obligations.TickCountsTimersDown : Prop :=
  ∀ h : Session, h.block.status = .running →
    ∃ t, h.apply .tick = .next ({ h with block := t }, .done) ∧
      t.dt.toNat = h.block.dt.toNat - 1 ∧ t.st.toNat = h.block.st.toNat - 1 ∧
      UnchangedBut [.delay, .sound] h.block t

/-- Setting a key presses it and releases all others; releasing a key clears it alone; an index above 15 has no move
(R273; D16). -/
def Obligations.KeyOperationsWriteTheMask : Prop :=
  ∀ h : Session, h.block.status = .running →
    (∀ k < 16,
      (∃ t, h.apply (.setPressed k) = .next ({ h with block := t }, .done) ∧
        (∀ j : Fin 16, t.keys.getLsbD j.val = decide (j.val = k)) ∧ UnchangedBut [.keys] h.block t) ∧
      (∃ t, h.apply (.release k) = .next ({ h with block := t }, .done) ∧
        (∀ j : Fin 16, t.keys.getLsbD j.val = (h.block.keys.getLsbD j.val && decide (j.val ≠ k))) ∧
        UnchangedBut [.keys] h.block t)) ∧
    ∀ k, 16 ≤ k → h.apply (.setPressed k) = .fault (.noSuchKey k) ∧ h.apply (.release k) = .fault (.noSuchKey k)

/-- The framebuffer read gives the rows, combined with the snapshot when `PERSIST` is true, and then keeps the raw bitmap
as the snapshot; without `PERSIST` it changes nothing (R275; D19). -/
def Obligations.FrameReadKeepsTheRawBitmap : Prop :=
  ∀ h : Session, h.block.status = .running →
    (h.block.cfg.persist = false → h.apply .readFrame = .next (h, .frame h.block.fb)) ∧
    (h.block.cfg.persist = true → ∃ (rows : Vector PixelRow 32) (t : State),
      h.apply .readFrame = .next ({ h with block := t }, .frame rows) ∧
      (∀ r : Fin 32, rows[r.val] = h.block.fb[r.val] ||| h.block.prev[r.val]) ∧
      t.prev = h.block.fb ∧ UnchangedBut [.snapshot] h.block t)

/-- A load of at most 3584 bytes copies them to 0x200 and up and nothing else; a longer one changes nothing and answers
TooLarge; after a cycle or a successful load there is no move (R271; D18). -/
def Obligations.LoadCopiesTheImageOnce : Prop :=
  ∀ (h : Session) (image : List Byte), h.block.status = .running →
    (h.cycled = false → h.loaded = false →
      (3584 < image.length → h.apply (.load image) = .next (h, .loadTooLarge)) ∧
      (image.length ≤ 3584 → ∃ t, h.apply (.load image) = .next (⟨t, false, true⟩, .loadOk) ∧
        (∀ (k : Nat) (lt : k < image.length), t.readByte (0x200 + k) = image[k]) ∧
        UnchangedBut (bytesFrom 0x200 image.length) h.block t)) ∧
    (h.cycled = true ∨ h.loaded = true → h.apply (.load image) = .fault .loadTooLate)

/-- A launched program starts at its first word: the first cycle after the load runs the instruction that the image's
first two bytes encode (R292 to R294). -/
def Obligations.LaunchedProgramStartsAtItsFirstWord : Prop :=
  ∀ (c : Config) (hi lo : Byte) (rest : List Byte) (h : Session) (i : Instr),
    Launched c (hi :: lo :: rest) h → decode (hi ++ lo) = some i →
    h.block.pc = 0x200 ∧ step h.block = exec i h.block

/-- The halted states R279 names: a jump to itself, and a key wait with no key pressed, change nothing (R82; D24). -/
def Obligations.JumpToItselfAndIdleKeyWaitHalt : Prop :=
  ∀ s : State, s.status = .running → s.pc.toNat + 1 ≤ 0xFFF →
    (∀ nnn : Addr, s.fetchWord = 0x1#4 ++ nnn → s.pc.toNat = 0x200 + nnn.toNat → Halted s) ∧
    (∀ x : Reg, s.fetchWord = 0xF#4 ++ BitVec.ofNat 4 x.val ++ 0x0A#8 → s.keys = 0 → Halted s)

/-! ## The cycle's random input, and the length of an instruction -/

/-- The random byte is an input of the cycle and no state of the block (R38, R86, R272; the free draw is D21, log entry
3). On a byte `r` the cycle does the same to any two machines whose blocks agree; it is `step` unless the word fetched is
`random`; a `random` in it gives exactly `r` AND kk; and `step` does to the block what the cycle does on the free byte. The
host's operation `cycle` on a running block runs exactly this cycle once, on the byte the host gives, and records that a
cycle has run, which R271 asks about (R272; that the record stands beside the block, and the empty reply, are the
model's choice, log entry 8). -/
def Obligations.CycleTakesTheRandomByteAsAnInput : Prop :=
  ∀ (s : State) (r : Byte),
    (∀ t : State, t.toBlock = s.toBlock → blockOf (t.cycle r) = blockOf (s.cycle r)) ∧
    ((∀ x kk, decode s.fetchWord ≠ some (.random x kk)) → s.cycle r = step s) ∧
    (∀ x kk, s.status = .running → s.pc.toNat + 1 ≤ 0xFFF → decode s.fetchWord = some (.random x kk) →
      ∃ t, s.cycle r = .next t ∧ (∀ k, (t.reg x).getLsbD k = (r.getLsbD k && kk.getLsbD k)) ∧
        t.pc = s.pc + 2 ∧ UnchangedBut [.pc, .reg x] s t) ∧
    blockOf (step s) = blockOf (s.cycle (Config.drawByte s.draws)) ∧
    ∀ h : Session, h.block.status = .running → ∃ t, h.block.cycle r = .next t ∧
      h.apply (.cycle r) = .next ({ h with block := t, cycled := true }, .done)

/-- Every instruction is one 16-bit word, two bytes long: a well-formed instruction's two bytes decode to it whatever
follows them, the decoder always consumes exactly two bytes, and no other byte changes what it reads (R70). -/
def Obligations.EveryInstructionIsTwoBytes : Prop :=
  (∀ (i : Instr) (rest : List Byte), i.wellFormed = true →
    (encodeBytes i).length = 2 ∧ decodeBytes (encodeBytes i ++ rest) = .ok (i, rest)) ∧
  (∀ (bytes rest : List Byte) (i : Instr), decodeBytes bytes = .ok (i, rest) → bytes.length = rest.length + 2) ∧
  ∀ (hi lo : Byte) (rest rest' : List Byte) (i : Instr),
    decodeBytes (hi :: lo :: rest) = .ok (i, rest) → decodeBytes (hi :: lo :: rest') = .ok (i, rest')
end

