-- ==== Sys2Proof/Laws/Decode.lean ====
section
/-! SUPPORT. The fields of a word put together from its parts, and what each row of the opcode map decodes to. -/

namespace Sys2Proof

/-! ## Fields of a word made of its parts -/

section Fields

variable (a b c d : Nibble) (kk : Byte) (nnn : Addr)

@[simp] theorem nibbleA_nibbles : nibbleA (a ++ b ++ c ++ d) = a := by
  apply BitVec.eq_of_getLsbD_eq; intro k hk
  simp only [nibbleA, BitVec.getLsbD_append, BitVec.getLsbD_extractLsb']
  interval_cases k <;> rfl
@[simp] theorem nibbleB_nibbles : nibbleB (a ++ b ++ c ++ d) = b := by
  apply BitVec.eq_of_getLsbD_eq; intro k hk
  simp only [nibbleB, BitVec.getLsbD_append, BitVec.getLsbD_extractLsb']
  interval_cases k <;> rfl
@[simp] theorem nibbleC_nibbles : nibbleC (a ++ b ++ c ++ d) = c := by
  apply BitVec.eq_of_getLsbD_eq; intro k hk
  simp only [nibbleC, BitVec.getLsbD_append, BitVec.getLsbD_extractLsb']
  interval_cases k <;> rfl
@[simp] theorem nibbleD_nibbles : nibbleD (a ++ b ++ c ++ d) = d := by
  apply BitVec.eq_of_getLsbD_eq; intro k hk
  simp only [nibbleD, BitVec.getLsbD_append, BitVec.getLsbD_extractLsb']
  interval_cases k <;> rfl

/-- A byte is its two nibbles. -/
theorem nibbles_of_byte : kk.extractLsb' 4 4 ++ kk.extractLsb' 0 4 = kk := by
  apply BitVec.eq_of_getLsbD_eq; intro k hk
  simp only [BitVec.getLsbD_append, BitVec.getLsbD_extractLsb']
  interval_cases k <;> rfl

/-- An address immediate is its three nibbles. -/
theorem nibbles_of_addr : nnn.extractLsb' 8 4 ++ nnn.extractLsb' 4 4 ++ nnn.extractLsb' 0 4 = nnn := by
  apply BitVec.eq_of_getLsbD_eq; intro k hk
  simp only [BitVec.getLsbD_append, BitVec.getLsbD_extractLsb']
  interval_cases k <;> rfl

/-- The formats with a byte immediate, as four nibbles. -/
theorem append_byte_eq_nibbles : a ++ b ++ kk = a ++ b ++ kk.extractLsb' 4 4 ++ kk.extractLsb' 0 4 := by
  apply BitVec.eq_of_getLsbD_eq; intro k hk
  simp only [BitVec.getLsbD_append, BitVec.getLsbD_extractLsb']
  interval_cases k <;> rfl

/-- The formats with an address immediate, as four nibbles. -/
theorem append_addr_eq_nibbles :
    a ++ nnn = a ++ nnn.extractLsb' 8 4 ++ nnn.extractLsb' 4 4 ++ nnn.extractLsb' 0 4 := by
  apply BitVec.eq_of_getLsbD_eq; intro k hk
  simp only [BitVec.getLsbD_append, BitVec.getLsbD_extractLsb']
  interval_cases k <;> rfl

/-- A word is its four nibbles. -/
theorem nibbles_of_word (w : Word) : nibbleA w ++ nibbleB w ++ nibbleC w ++ nibbleD w = w := by
  apply BitVec.eq_of_getLsbD_eq; intro k hk
  simp only [nibbleA, nibbleB, nibbleC, nibbleD, BitVec.getLsbD_append, BitVec.getLsbD_extractLsb']
  interval_cases k <;> rfl

/-- A word is its two bytes. -/
theorem bytes_of_word (w : Word) : highByte w ++ lowByte w = w := by
  apply BitVec.eq_of_getLsbD_eq; intro k hk
  simp only [highByte, lowByte, BitVec.getLsbD_append, BitVec.getLsbD_extractLsb']
  interval_cases k <;> rfl

end Fields

@[simp] theorem regOfNibble_ofNat (x : Reg) : regOfNibble (BitVec.ofNat 4 x.val) = x := by
  apply Fin.ext; simp [regOfNibble]

@[simp] theorem regOfNibble_nibbleOfReg (x : Reg) : regOfNibble (nibbleOfReg x) = x := regOfNibble_ofNat x

theorem nibbleOfReg_regOfNibble (b : Nibble) : nibbleOfReg (regOfNibble b) = b := by
  simp [nibbleOfReg, regOfNibble]

/-! ## Decoding in terms of the parts -/

theorem decode_nibbles (a b c d : Nibble) : decode (a ++ b ++ c ++ d) = decodeNibbles a b c d := by
  unfold decode
  rw [nibbleA_nibbles, nibbleB_nibbles, nibbleC_nibbles, nibbleD_nibbles]

/-- A word with an address immediate: the first nibble chooses the row (R74). -/
theorem decode_addr (a : Nibble) (nnn : Addr) :
    decode (a ++ nnn) =
      decodeNibbles a (nnn.extractLsb' 8 4) (nnn.extractLsb' 4 4) (nnn.extractLsb' 0 4) := by
  rw [← decode_nibbles]; exact congrArg decode (append_addr_eq_nibbles a nnn)

/-- A word with a register and a byte (R74). -/
theorem decode_byte (a b : Nibble) (kk : Byte) :
    decode (a ++ b ++ kk) = decodeNibbles a b (kk.extractLsb' 4 4) (kk.extractLsb' 0 4) := by
  rw [← decode_nibbles]; exact congrArg decode (append_byte_eq_nibbles a b kk)

/-! ## The rows of R76 with an immediate -/

section Rows

variable (x y : Reg) (kk : Byte) (nnn : Addr) (d : Nibble)

theorem decode_jump : decode (0x1#4 ++ nnn) = some (.jump nnn) := by
  rw [decode_addr]; exact congrArg (some ∘ Instr.jump) (nibbles_of_addr nnn)
theorem decode_call : decode (0x2#4 ++ nnn) = some (.call nnn) := by
  rw [decode_addr]; exact congrArg (some ∘ Instr.call) (nibbles_of_addr nnn)
theorem decode_loadIndex : decode (0xA#4 ++ nnn) = some (.loadIndex nnn) := by
  rw [decode_addr]; exact congrArg (some ∘ Instr.loadIndex) (nibbles_of_addr nnn)
theorem decode_jumpV0 : decode (0xB#4 ++ nnn) = some (.jumpV0 nnn) := by
  rw [decode_addr]; exact congrArg (some ∘ Instr.jumpV0) (nibbles_of_addr nnn)

theorem decode_skipEqImm : decode (0x3#4 ++ BitVec.ofNat 4 x.val ++ kk) = some (.skipEqImm x kk) := by
  rw [decode_byte]; simp only [decodeNibbles, regOfNibble_ofNat]; rw [nibbles_of_byte]; rfl
theorem decode_skipNeImm : decode (0x4#4 ++ BitVec.ofNat 4 x.val ++ kk) = some (.skipNeImm x kk) := by
  rw [decode_byte]; simp only [decodeNibbles, regOfNibble_ofNat]; rw [nibbles_of_byte]; rfl
theorem decode_loadImm : decode (0x6#4 ++ BitVec.ofNat 4 x.val ++ kk) = some (.loadImm x kk) := by
  rw [decode_byte]; simp only [decodeNibbles, regOfNibble_ofNat]; rw [nibbles_of_byte]; rfl
theorem decode_addImm : decode (0x7#4 ++ BitVec.ofNat 4 x.val ++ kk) = some (.addImm x kk) := by
  rw [decode_byte]; simp only [decodeNibbles, regOfNibble_ofNat]; rw [nibbles_of_byte]; rfl
theorem decode_random : decode (0xC#4 ++ BitVec.ofNat 4 x.val ++ kk) = some (.random x kk) := by
  rw [decode_byte]; simp only [decodeNibbles, regOfNibble_ofNat]; rw [nibbles_of_byte]; rfl

/-- The rows `Ex__` (R76). -/
theorem decode_keySkip : decode (0xE#4 ++ BitVec.ofNat 4 x.val ++ kk) = decodeKeySkip x kk := by
  rw [decode_byte]; simp only [decodeNibbles, regOfNibble_ofNat]; rw [nibbles_of_byte]; rfl
/-- The rows `Fx__` (R76). -/
theorem decode_misc : decode (0xF#4 ++ BitVec.ofNat 4 x.val ++ kk) = decodeMisc x kk := by
  rw [decode_byte]; simp only [decodeNibbles, regOfNibble_ofNat]; rw [nibbles_of_byte]; rfl

/-- The rows `8xy_` (R76). -/
theorem decode_alu :
    decode (0x8#4 ++ BitVec.ofNat 4 x.val ++ BitVec.ofNat 4 y.val ++ d) = decodeAlu x y d := by
  rw [decode_nibbles]; simp only [decodeNibbles, regOfNibble_ofNat]; rfl
/-- The row `5xy0`; the last nibble must be 0 (R77, R78). -/
theorem decode_skipEqReg :
    decode (0x5#4 ++ BitVec.ofNat 4 x.val ++ BitVec.ofNat 4 y.val ++ d) =
      if d = 0 then some (.skipEqReg x y) else none := by
  rw [decode_nibbles]; simp only [decodeNibbles, regOfNibble_ofNat]; rfl
/-- The row `9xy0`; the last nibble must be 0 (R77, R78). -/
theorem decode_skipNeReg :
    decode (0x9#4 ++ BitVec.ofNat 4 x.val ++ BitVec.ofNat 4 y.val ++ d) =
      if d = 0 then some (.skipNeReg x y) else none := by
  rw [decode_nibbles]; simp only [decodeNibbles, regOfNibble_ofNat]; rfl
/-- The row `Dxyn` (R76). -/
theorem decode_draw {n : Nat} (h : n ≤ 15) :
    decode (0xD#4 ++ BitVec.ofNat 4 x.val ++ BitVec.ofNat 4 y.val ++ BitVec.ofNat 4 n) = some (.draw x y n) := by
  have hn : (BitVec.ofNat 4 n).toNat = n := by rw [BitVec.toNat_ofNat]; exact Nat.mod_eq_of_lt (by omega)
  rw [decode_nibbles]; simp only [decodeNibbles, regOfNibble_ofNat]
  exact congrArg (fun k => some (Instr.draw x y k)) hn

end Rows

/-! ## The encoder's formats decode by the same lemmas -/

theorem wordFN_eq (a : Nibble) (nnn : Addr) : wordFN a nnn = a ++ nnn := (append_addr_eq_nibbles a nnn).symm

theorem wordFXK_eq (a : Nibble) (x : Reg) (kk : Byte) : wordFXK a x kk = a ++ BitVec.ofNat 4 x.val ++ kk :=
  (append_byte_eq_nibbles a _ kk).symm

theorem wordFXYN_eq (a : Nibble) (x y : Reg) (d : Nibble) :
    wordFXYN a x y d = a ++ BitVec.ofNat 4 x.val ++ BitVec.ofNat 4 y.val ++ d := rfl

/-- What the host's table word decodes to: the word itself is decoded. -/
theorem decodeTableWord_eq (nbits w : Nat) : decodeTableWord nbits w = decode (tableWord nbits w) := by
  unfold decodeTableWord decodeBytes
  simp only [bytes_of_word]
  cases decode (tableWord nbits w) <;> rfl

end Sys2Proof
end

