-- ==== Sys2Proof/Laws/State.lean ====
section
/-! SUPPORT. Each named update of the state, field by field, so that no proof unfolds a record update; and what the
accessors read after each update. -/

namespace Sys2Proof.Machine.State

variable (s : State)

/-! ### setReg -/

@[simp] theorem setReg_v (x : Reg) (b : Byte) : (s.setReg x b).v = s.v.set x.val b := rfl
@[simp] theorem setReg_i (x : Reg) (b : Byte) : (s.setReg x b).i = s.i := rfl
@[simp] theorem setReg_pc (x : Reg) (b : Byte) : (s.setReg x b).pc = s.pc := rfl
@[simp] theorem setReg_stack (x : Reg) (b : Byte) : (s.setReg x b).stack = s.stack := rfl
@[simp] theorem setReg_sp (x : Reg) (b : Byte) : (s.setReg x b).sp = s.sp := rfl
@[simp] theorem setReg_dt (x : Reg) (b : Byte) : (s.setReg x b).dt = s.dt := rfl
@[simp] theorem setReg_st (x : Reg) (b : Byte) : (s.setReg x b).st = s.st := rfl
@[simp] theorem setReg_fb (x : Reg) (b : Byte) : (s.setReg x b).fb = s.fb := rfl
@[simp] theorem setReg_prev (x : Reg) (b : Byte) : (s.setReg x b).prev = s.prev := rfl
@[simp] theorem setReg_keys (x : Reg) (b : Byte) : (s.setReg x b).keys = s.keys := rfl
@[simp] theorem setReg_status (x : Reg) (b : Byte) : (s.setReg x b).status = s.status := rfl
@[simp] theorem setReg_mem (x : Reg) (b : Byte) : (s.setReg x b).mem = s.mem := rfl
@[simp] theorem setReg_cfg (x : Reg) (b : Byte) : (s.setReg x b).cfg = s.cfg := rfl
@[simp] theorem setReg_draws (x : Reg) (b : Byte) : (s.setReg x b).draws = s.draws := rfl

/-! ### setRegsUpTo -/

@[simp] theorem setRegsUpTo_v (x : Reg) (f : Nat → Byte) : (s.setRegsUpTo x f).v = s.v.mapFinIdx fun k old _ => if k ≤ x.val then f k else old := rfl
@[simp] theorem setRegsUpTo_i (x : Reg) (f : Nat → Byte) : (s.setRegsUpTo x f).i = s.i := rfl
@[simp] theorem setRegsUpTo_pc (x : Reg) (f : Nat → Byte) : (s.setRegsUpTo x f).pc = s.pc := rfl
@[simp] theorem setRegsUpTo_stack (x : Reg) (f : Nat → Byte) : (s.setRegsUpTo x f).stack = s.stack := rfl
@[simp] theorem setRegsUpTo_sp (x : Reg) (f : Nat → Byte) : (s.setRegsUpTo x f).sp = s.sp := rfl
@[simp] theorem setRegsUpTo_dt (x : Reg) (f : Nat → Byte) : (s.setRegsUpTo x f).dt = s.dt := rfl
@[simp] theorem setRegsUpTo_st (x : Reg) (f : Nat → Byte) : (s.setRegsUpTo x f).st = s.st := rfl
@[simp] theorem setRegsUpTo_fb (x : Reg) (f : Nat → Byte) : (s.setRegsUpTo x f).fb = s.fb := rfl
@[simp] theorem setRegsUpTo_prev (x : Reg) (f : Nat → Byte) : (s.setRegsUpTo x f).prev = s.prev := rfl
@[simp] theorem setRegsUpTo_keys (x : Reg) (f : Nat → Byte) : (s.setRegsUpTo x f).keys = s.keys := rfl
@[simp] theorem setRegsUpTo_status (x : Reg) (f : Nat → Byte) : (s.setRegsUpTo x f).status = s.status := rfl
@[simp] theorem setRegsUpTo_mem (x : Reg) (f : Nat → Byte) : (s.setRegsUpTo x f).mem = s.mem := rfl
@[simp] theorem setRegsUpTo_cfg (x : Reg) (f : Nat → Byte) : (s.setRegsUpTo x f).cfg = s.cfg := rfl
@[simp] theorem setRegsUpTo_draws (x : Reg) (f : Nat → Byte) : (s.setRegsUpTo x f).draws = s.draws := rfl

/-! ### setIndex -/

@[simp] theorem setIndex_v (a : Addr) : (s.setIndex a).v = s.v := rfl
@[simp] theorem setIndex_i (a : Addr) : (s.setIndex a).i = a := rfl
@[simp] theorem setIndex_pc (a : Addr) : (s.setIndex a).pc = s.pc := rfl
@[simp] theorem setIndex_stack (a : Addr) : (s.setIndex a).stack = s.stack := rfl
@[simp] theorem setIndex_sp (a : Addr) : (s.setIndex a).sp = s.sp := rfl
@[simp] theorem setIndex_dt (a : Addr) : (s.setIndex a).dt = s.dt := rfl
@[simp] theorem setIndex_st (a : Addr) : (s.setIndex a).st = s.st := rfl
@[simp] theorem setIndex_fb (a : Addr) : (s.setIndex a).fb = s.fb := rfl
@[simp] theorem setIndex_prev (a : Addr) : (s.setIndex a).prev = s.prev := rfl
@[simp] theorem setIndex_keys (a : Addr) : (s.setIndex a).keys = s.keys := rfl
@[simp] theorem setIndex_status (a : Addr) : (s.setIndex a).status = s.status := rfl
@[simp] theorem setIndex_mem (a : Addr) : (s.setIndex a).mem = s.mem := rfl
@[simp] theorem setIndex_cfg (a : Addr) : (s.setIndex a).cfg = s.cfg := rfl
@[simp] theorem setIndex_draws (a : Addr) : (s.setIndex a).draws = s.draws := rfl

/-! ### setDT -/

@[simp] theorem setDT_v (b : Byte) : (s.setDT b).v = s.v := rfl
@[simp] theorem setDT_i (b : Byte) : (s.setDT b).i = s.i := rfl
@[simp] theorem setDT_pc (b : Byte) : (s.setDT b).pc = s.pc := rfl
@[simp] theorem setDT_stack (b : Byte) : (s.setDT b).stack = s.stack := rfl
@[simp] theorem setDT_sp (b : Byte) : (s.setDT b).sp = s.sp := rfl
@[simp] theorem setDT_dt (b : Byte) : (s.setDT b).dt = b := rfl
@[simp] theorem setDT_st (b : Byte) : (s.setDT b).st = s.st := rfl
@[simp] theorem setDT_fb (b : Byte) : (s.setDT b).fb = s.fb := rfl
@[simp] theorem setDT_prev (b : Byte) : (s.setDT b).prev = s.prev := rfl
@[simp] theorem setDT_keys (b : Byte) : (s.setDT b).keys = s.keys := rfl
@[simp] theorem setDT_status (b : Byte) : (s.setDT b).status = s.status := rfl
@[simp] theorem setDT_mem (b : Byte) : (s.setDT b).mem = s.mem := rfl
@[simp] theorem setDT_cfg (b : Byte) : (s.setDT b).cfg = s.cfg := rfl
@[simp] theorem setDT_draws (b : Byte) : (s.setDT b).draws = s.draws := rfl

/-! ### setST -/

@[simp] theorem setST_v (b : Byte) : (s.setST b).v = s.v := rfl
@[simp] theorem setST_i (b : Byte) : (s.setST b).i = s.i := rfl
@[simp] theorem setST_pc (b : Byte) : (s.setST b).pc = s.pc := rfl
@[simp] theorem setST_stack (b : Byte) : (s.setST b).stack = s.stack := rfl
@[simp] theorem setST_sp (b : Byte) : (s.setST b).sp = s.sp := rfl
@[simp] theorem setST_dt (b : Byte) : (s.setST b).dt = s.dt := rfl
@[simp] theorem setST_st (b : Byte) : (s.setST b).st = b := rfl
@[simp] theorem setST_fb (b : Byte) : (s.setST b).fb = s.fb := rfl
@[simp] theorem setST_prev (b : Byte) : (s.setST b).prev = s.prev := rfl
@[simp] theorem setST_keys (b : Byte) : (s.setST b).keys = s.keys := rfl
@[simp] theorem setST_status (b : Byte) : (s.setST b).status = s.status := rfl
@[simp] theorem setST_mem (b : Byte) : (s.setST b).mem = s.mem := rfl
@[simp] theorem setST_cfg (b : Byte) : (s.setST b).cfg = s.cfg := rfl
@[simp] theorem setST_draws (b : Byte) : (s.setST b).draws = s.draws := rfl

/-! ### setFb -/

@[simp] theorem setFb_v (f : Vector PixelRow 32) : (s.setFb f).v = s.v := rfl
@[simp] theorem setFb_i (f : Vector PixelRow 32) : (s.setFb f).i = s.i := rfl
@[simp] theorem setFb_pc (f : Vector PixelRow 32) : (s.setFb f).pc = s.pc := rfl
@[simp] theorem setFb_stack (f : Vector PixelRow 32) : (s.setFb f).stack = s.stack := rfl
@[simp] theorem setFb_sp (f : Vector PixelRow 32) : (s.setFb f).sp = s.sp := rfl
@[simp] theorem setFb_dt (f : Vector PixelRow 32) : (s.setFb f).dt = s.dt := rfl
@[simp] theorem setFb_st (f : Vector PixelRow 32) : (s.setFb f).st = s.st := rfl
@[simp] theorem setFb_fb (f : Vector PixelRow 32) : (s.setFb f).fb = f := rfl
@[simp] theorem setFb_prev (f : Vector PixelRow 32) : (s.setFb f).prev = s.prev := rfl
@[simp] theorem setFb_keys (f : Vector PixelRow 32) : (s.setFb f).keys = s.keys := rfl
@[simp] theorem setFb_status (f : Vector PixelRow 32) : (s.setFb f).status = s.status := rfl
@[simp] theorem setFb_mem (f : Vector PixelRow 32) : (s.setFb f).mem = s.mem := rfl
@[simp] theorem setFb_cfg (f : Vector PixelRow 32) : (s.setFb f).cfg = s.cfg := rfl
@[simp] theorem setFb_draws (f : Vector PixelRow 32) : (s.setFb f).draws = s.draws := rfl

/-! ### setPrev -/

@[simp] theorem setPrev_v (f : Vector PixelRow 32) : (s.setPrev f).v = s.v := rfl
@[simp] theorem setPrev_i (f : Vector PixelRow 32) : (s.setPrev f).i = s.i := rfl
@[simp] theorem setPrev_pc (f : Vector PixelRow 32) : (s.setPrev f).pc = s.pc := rfl
@[simp] theorem setPrev_stack (f : Vector PixelRow 32) : (s.setPrev f).stack = s.stack := rfl
@[simp] theorem setPrev_sp (f : Vector PixelRow 32) : (s.setPrev f).sp = s.sp := rfl
@[simp] theorem setPrev_dt (f : Vector PixelRow 32) : (s.setPrev f).dt = s.dt := rfl
@[simp] theorem setPrev_st (f : Vector PixelRow 32) : (s.setPrev f).st = s.st := rfl
@[simp] theorem setPrev_fb (f : Vector PixelRow 32) : (s.setPrev f).fb = s.fb := rfl
@[simp] theorem setPrev_prev (f : Vector PixelRow 32) : (s.setPrev f).prev = f := rfl
@[simp] theorem setPrev_keys (f : Vector PixelRow 32) : (s.setPrev f).keys = s.keys := rfl
@[simp] theorem setPrev_status (f : Vector PixelRow 32) : (s.setPrev f).status = s.status := rfl
@[simp] theorem setPrev_mem (f : Vector PixelRow 32) : (s.setPrev f).mem = s.mem := rfl
@[simp] theorem setPrev_cfg (f : Vector PixelRow 32) : (s.setPrev f).cfg = s.cfg := rfl
@[simp] theorem setPrev_draws (f : Vector PixelRow 32) : (s.setPrev f).draws = s.draws := rfl

/-! ### setKeys -/

@[simp] theorem setKeys_v (m : BitVec 16) : (s.setKeys m).v = s.v := rfl
@[simp] theorem setKeys_i (m : BitVec 16) : (s.setKeys m).i = s.i := rfl
@[simp] theorem setKeys_pc (m : BitVec 16) : (s.setKeys m).pc = s.pc := rfl
@[simp] theorem setKeys_stack (m : BitVec 16) : (s.setKeys m).stack = s.stack := rfl
@[simp] theorem setKeys_sp (m : BitVec 16) : (s.setKeys m).sp = s.sp := rfl
@[simp] theorem setKeys_dt (m : BitVec 16) : (s.setKeys m).dt = s.dt := rfl
@[simp] theorem setKeys_st (m : BitVec 16) : (s.setKeys m).st = s.st := rfl
@[simp] theorem setKeys_fb (m : BitVec 16) : (s.setKeys m).fb = s.fb := rfl
@[simp] theorem setKeys_prev (m : BitVec 16) : (s.setKeys m).prev = s.prev := rfl
@[simp] theorem setKeys_keys (m : BitVec 16) : (s.setKeys m).keys = m := rfl
@[simp] theorem setKeys_status (m : BitVec 16) : (s.setKeys m).status = s.status := rfl
@[simp] theorem setKeys_mem (m : BitVec 16) : (s.setKeys m).mem = s.mem := rfl
@[simp] theorem setKeys_cfg (m : BitVec 16) : (s.setKeys m).cfg = s.cfg := rfl
@[simp] theorem setKeys_draws (m : BitVec 16) : (s.setKeys m).draws = s.draws := rfl

/-! ### countDraw -/

@[simp] theorem countDraw_v : s.countDraw.v = s.v := rfl
@[simp] theorem countDraw_i : s.countDraw.i = s.i := rfl
@[simp] theorem countDraw_pc : s.countDraw.pc = s.pc := rfl
@[simp] theorem countDraw_stack : s.countDraw.stack = s.stack := rfl
@[simp] theorem countDraw_sp : s.countDraw.sp = s.sp := rfl
@[simp] theorem countDraw_dt : s.countDraw.dt = s.dt := rfl
@[simp] theorem countDraw_st : s.countDraw.st = s.st := rfl
@[simp] theorem countDraw_fb : s.countDraw.fb = s.fb := rfl
@[simp] theorem countDraw_prev : s.countDraw.prev = s.prev := rfl
@[simp] theorem countDraw_keys : s.countDraw.keys = s.keys := rfl
@[simp] theorem countDraw_status : s.countDraw.status = s.status := rfl
@[simp] theorem countDraw_mem : s.countDraw.mem = s.mem := rfl
@[simp] theorem countDraw_cfg : s.countDraw.cfg = s.cfg := rfl
@[simp] theorem countDraw_draws : s.countDraw.draws = s.draws + 1 := rfl

/-! ### writeBytes -/

@[simp] theorem writeBytes_v (a : Nat) (bs : List Byte) : (s.writeBytes a bs).v = s.v := rfl
@[simp] theorem writeBytes_i (a : Nat) (bs : List Byte) : (s.writeBytes a bs).i = s.i := rfl
@[simp] theorem writeBytes_pc (a : Nat) (bs : List Byte) : (s.writeBytes a bs).pc = s.pc := rfl
@[simp] theorem writeBytes_stack (a : Nat) (bs : List Byte) : (s.writeBytes a bs).stack = s.stack := rfl
@[simp] theorem writeBytes_sp (a : Nat) (bs : List Byte) : (s.writeBytes a bs).sp = s.sp := rfl
@[simp] theorem writeBytes_dt (a : Nat) (bs : List Byte) : (s.writeBytes a bs).dt = s.dt := rfl
@[simp] theorem writeBytes_st (a : Nat) (bs : List Byte) : (s.writeBytes a bs).st = s.st := rfl
@[simp] theorem writeBytes_fb (a : Nat) (bs : List Byte) : (s.writeBytes a bs).fb = s.fb := rfl
@[simp] theorem writeBytes_prev (a : Nat) (bs : List Byte) : (s.writeBytes a bs).prev = s.prev := rfl
@[simp] theorem writeBytes_keys (a : Nat) (bs : List Byte) : (s.writeBytes a bs).keys = s.keys := rfl
@[simp] theorem writeBytes_status (a : Nat) (bs : List Byte) : (s.writeBytes a bs).status = s.status := rfl
@[simp] theorem writeBytes_mem (a : Nat) (bs : List Byte) : (s.writeBytes a bs).mem = Memory.writeBytes s.cfg s.mem a bs := rfl
@[simp] theorem writeBytes_cfg (a : Nat) (bs : List Byte) : (s.writeBytes a bs).cfg = s.cfg := rfl
@[simp] theorem writeBytes_draws (a : Nat) (bs : List Byte) : (s.writeBytes a bs).draws = s.draws := rfl

/-! ### raiseFatal -/

@[simp] theorem raiseFatal_v (k : FatalKind) : (s.raiseFatal k).v = s.v := rfl
@[simp] theorem raiseFatal_i (k : FatalKind) : (s.raiseFatal k).i = s.i := rfl
@[simp] theorem raiseFatal_pc (k : FatalKind) : (s.raiseFatal k).pc = s.pc := rfl
@[simp] theorem raiseFatal_stack (k : FatalKind) : (s.raiseFatal k).stack = s.stack := rfl
@[simp] theorem raiseFatal_sp (k : FatalKind) : (s.raiseFatal k).sp = s.sp := rfl
@[simp] theorem raiseFatal_dt (k : FatalKind) : (s.raiseFatal k).dt = s.dt := rfl
@[simp] theorem raiseFatal_st (k : FatalKind) : (s.raiseFatal k).st = s.st := rfl
@[simp] theorem raiseFatal_fb (k : FatalKind) : (s.raiseFatal k).fb = s.fb := rfl
@[simp] theorem raiseFatal_prev (k : FatalKind) : (s.raiseFatal k).prev = s.prev := rfl
@[simp] theorem raiseFatal_keys (k : FatalKind) : (s.raiseFatal k).keys = s.keys := rfl
@[simp] theorem raiseFatal_status (k : FatalKind) : (s.raiseFatal k).status = .fatal k := rfl
@[simp] theorem raiseFatal_mem (k : FatalKind) : (s.raiseFatal k).mem = s.mem := rfl
@[simp] theorem raiseFatal_cfg (k : FatalKind) : (s.raiseFatal k).cfg = s.cfg := rfl
@[simp] theorem raiseFatal_draws (k : FatalKind) : (s.raiseFatal k).draws = s.draws := rfl

/-! ### applyEffect -/

@[simp] theorem applyEffect_v (e : PcEffect) : (s.applyEffect e).v = s.v := rfl
@[simp] theorem applyEffect_i (e : PcEffect) : (s.applyEffect e).i = s.i := rfl
@[simp] theorem applyEffect_pc (e : PcEffect) : (s.applyEffect e).pc = nextPc s.pc e := rfl
@[simp] theorem applyEffect_stack (e : PcEffect) : (s.applyEffect e).stack = s.stack := rfl
@[simp] theorem applyEffect_sp (e : PcEffect) : (s.applyEffect e).sp = s.sp := rfl
@[simp] theorem applyEffect_dt (e : PcEffect) : (s.applyEffect e).dt = s.dt := rfl
@[simp] theorem applyEffect_st (e : PcEffect) : (s.applyEffect e).st = s.st := rfl
@[simp] theorem applyEffect_fb (e : PcEffect) : (s.applyEffect e).fb = s.fb := rfl
@[simp] theorem applyEffect_prev (e : PcEffect) : (s.applyEffect e).prev = s.prev := rfl
@[simp] theorem applyEffect_keys (e : PcEffect) : (s.applyEffect e).keys = s.keys := rfl
@[simp] theorem applyEffect_status (e : PcEffect) : (s.applyEffect e).status = s.status := rfl
@[simp] theorem applyEffect_mem (e : PcEffect) : (s.applyEffect e).mem = s.mem := rfl
@[simp] theorem applyEffect_cfg (e : PcEffect) : (s.applyEffect e).cfg = s.cfg := rfl
@[simp] theorem applyEffect_draws (e : PcEffect) : (s.applyEffect e).draws = s.draws := rfl

/-! ### push -/

@[simp] theorem push_v (ra : Word) (h : s.sp.val < 16) : (s.push ra h).v = s.v := rfl
@[simp] theorem push_i (ra : Word) (h : s.sp.val < 16) : (s.push ra h).i = s.i := rfl
@[simp] theorem push_pc (ra : Word) (h : s.sp.val < 16) : (s.push ra h).pc = s.pc := rfl
@[simp] theorem push_stack (ra : Word) (h : s.sp.val < 16) : (s.push ra h).stack = s.stack.set s.sp.val ra := rfl
@[simp] theorem push_sp (ra : Word) (h : s.sp.val < 16) : (s.push ra h).sp = ⟨s.sp.val + 1, by omega⟩ := rfl
@[simp] theorem push_dt (ra : Word) (h : s.sp.val < 16) : (s.push ra h).dt = s.dt := rfl
@[simp] theorem push_st (ra : Word) (h : s.sp.val < 16) : (s.push ra h).st = s.st := rfl
@[simp] theorem push_fb (ra : Word) (h : s.sp.val < 16) : (s.push ra h).fb = s.fb := rfl
@[simp] theorem push_prev (ra : Word) (h : s.sp.val < 16) : (s.push ra h).prev = s.prev := rfl
@[simp] theorem push_keys (ra : Word) (h : s.sp.val < 16) : (s.push ra h).keys = s.keys := rfl
@[simp] theorem push_status (ra : Word) (h : s.sp.val < 16) : (s.push ra h).status = s.status := rfl
@[simp] theorem push_mem (ra : Word) (h : s.sp.val < 16) : (s.push ra h).mem = s.mem := rfl
@[simp] theorem push_cfg (ra : Word) (h : s.sp.val < 16) : (s.push ra h).cfg = s.cfg := rfl
@[simp] theorem push_draws (ra : Word) (h : s.sp.val < 16) : (s.push ra h).draws = s.draws := rfl

/-! ### pop -/

@[simp] theorem pop_v : s.pop.v = s.v := rfl
@[simp] theorem pop_i : s.pop.i = s.i := rfl
@[simp] theorem pop_pc : s.pop.pc = s.pc := rfl
@[simp] theorem pop_stack : s.pop.stack = s.stack := rfl
@[simp] theorem pop_sp : s.pop.sp = ⟨s.sp.val - 1, by omega⟩ := rfl
@[simp] theorem pop_dt : s.pop.dt = s.dt := rfl
@[simp] theorem pop_st : s.pop.st = s.st := rfl
@[simp] theorem pop_fb : s.pop.fb = s.fb := rfl
@[simp] theorem pop_prev : s.pop.prev = s.prev := rfl
@[simp] theorem pop_keys : s.pop.keys = s.keys := rfl
@[simp] theorem pop_status : s.pop.status = s.status := rfl
@[simp] theorem pop_mem : s.pop.mem = s.mem := rfl
@[simp] theorem pop_cfg : s.pop.cfg = s.cfg := rfl
@[simp] theorem pop_draws : s.pop.draws = s.draws := rfl

/-! ### The accessors after an update -/

@[simp] theorem readByte_setReg (x : Reg) (b : Byte) (q : Nat) : (s.setReg x b).readByte q = s.readByte q := rfl
@[simp] theorem readByte_setRegsUpTo (x : Reg) (f : Nat → Byte) (q : Nat) : (s.setRegsUpTo x f).readByte q = s.readByte q := rfl
@[simp] theorem reg_setIndex (a : Addr) (r : Reg) : (s.setIndex a).reg r = s.reg r := rfl
@[simp] theorem readByte_setIndex (a : Addr) (q : Nat) : (s.setIndex a).readByte q = s.readByte q := rfl
@[simp] theorem reg_setDT (b : Byte) (r : Reg) : (s.setDT b).reg r = s.reg r := rfl
@[simp] theorem readByte_setDT (b : Byte) (q : Nat) : (s.setDT b).readByte q = s.readByte q := rfl
@[simp] theorem reg_setST (b : Byte) (r : Reg) : (s.setST b).reg r = s.reg r := rfl
@[simp] theorem readByte_setST (b : Byte) (q : Nat) : (s.setST b).readByte q = s.readByte q := rfl
@[simp] theorem reg_setFb (f : Vector PixelRow 32) (r : Reg) : (s.setFb f).reg r = s.reg r := rfl
@[simp] theorem readByte_setFb (f : Vector PixelRow 32) (q : Nat) : (s.setFb f).readByte q = s.readByte q := rfl
@[simp] theorem reg_setPrev (f : Vector PixelRow 32) (r : Reg) : (s.setPrev f).reg r = s.reg r := rfl
@[simp] theorem readByte_setPrev (f : Vector PixelRow 32) (q : Nat) : (s.setPrev f).readByte q = s.readByte q := rfl
@[simp] theorem reg_setKeys (m : BitVec 16) (r : Reg) : (s.setKeys m).reg r = s.reg r := rfl
@[simp] theorem readByte_setKeys (m : BitVec 16) (q : Nat) : (s.setKeys m).readByte q = s.readByte q := rfl
@[simp] theorem reg_countDraw (r : Reg) : s.countDraw.reg r = s.reg r := rfl
@[simp] theorem readByte_countDraw (q : Nat) : s.countDraw.readByte q = s.readByte q := rfl
@[simp] theorem reg_writeBytes (a : Nat) (bs : List Byte) (r : Reg) : (s.writeBytes a bs).reg r = s.reg r := rfl
@[simp] theorem reg_raiseFatal (k : FatalKind) (r : Reg) : (s.raiseFatal k).reg r = s.reg r := rfl
@[simp] theorem readByte_raiseFatal (k : FatalKind) (q : Nat) : (s.raiseFatal k).readByte q = s.readByte q := rfl
@[simp] theorem reg_applyEffect (e : PcEffect) (r : Reg) : (s.applyEffect e).reg r = s.reg r := rfl
@[simp] theorem readByte_applyEffect (e : PcEffect) (q : Nat) : (s.applyEffect e).readByte q = s.readByte q := rfl
@[simp] theorem reg_push (ra : Word) (h : s.sp.val < 16) (r : Reg) : (s.push ra h).reg r = s.reg r := rfl
@[simp] theorem readByte_push (ra : Word) (h : s.sp.val < 16) (q : Nat) : (s.push ra h).readByte q = s.readByte q := rfl
@[simp] theorem reg_pop (r : Reg) : s.pop.reg r = s.reg r := rfl
@[simp] theorem readByte_pop (q : Nat) : s.pop.readByte q = s.readByte q := rfl

theorem reg_setReg (x r : Reg) (b : Byte) : (s.setReg x b).reg r = if r = x then b else s.reg r := by
  unfold reg
  simp only [setReg_v, Vector.getElem_set, Fin.ext_iff, eq_comm]

@[simp] theorem reg_setReg_same (x : Reg) (b : Byte) : (s.setReg x b).reg x = b := by
  rw [reg_setReg, if_pos rfl]

theorem reg_setReg_other {x r : Reg} (b : Byte) (h : r ≠ x) : (s.setReg x b).reg r = s.reg r := by
  rw [reg_setReg, if_neg h]

theorem reg_setRegsUpTo (x r : Reg) (f : Nat → Byte) :
    (s.setRegsUpTo x f).reg r = if r ≤ x then f r.val else s.reg r := by
  unfold reg
  simp only [setRegsUpTo_v, Vector.getElem_mapFinIdx, Fin.le_def]

end Sys2Proof.Machine.State
end

