-- ==== Sys2Proof/Laws/Memory.lean ====
section
/-! SUPPORT. Memory: a read after a write, what a write leaves alone, and that every memory operation keeps the
canonical form. -/

namespace Sys2Proof.Machine.Memory

/-! ## Listing and unlisting one cell -/

theorem find?_erase (m : Memory) (a q : Nat) : find? (erase m a) q = if a = q then none else find? m q := by
  induction m with
  | nil => simp [erase, find?]
  | cons e m ih =>
    obtain ⟨k, b⟩ := e
    by_cases hk : k = a
    · subst hk
      rw [erase, if_pos rfl, ih]
      by_cases hq : k = q <;> simp [find?, hq]
    · by_cases hq : k = q
      · subst hq
        simp [erase, find?, hk, Ne.symm hk]
      · simp [erase, find?, hk, hq, ih]

theorem find?_insert (m : Memory) (a q : Nat) (v : Byte) :
    find? (insert m a v) q = if a = q then some v else find? m q := by
  induction m with
  | nil => simp [insert, find?]
  | cons e m ih =>
    obtain ⟨k, b⟩ := e
    simp only [insert]
    split
    · simp [find?]
    · split
      · rename_i hk
        subst hk
        by_cases hq : k = q <;> simp [find?, hq]
      · rename_i hk
        by_cases hq : k = q
        · subst hq
          simp [find?, Ne.symm hk]
        · simp [find?, hq, ih]

theorem mem_of_mem_erase {m : Memory} {a : Nat} {e : Host.Cell} (h : e ∈ erase m a) : e ∈ m ∧ e.1 ≠ a := by
  induction m with
  | nil => simp [erase] at h
  | cons f m ih =>
    obtain ⟨k, b⟩ := f
    by_cases hk : k = a
    · have := ih (by simpa [erase, hk] using h)
      exact ⟨List.mem_cons_of_mem _ this.1, this.2⟩
    · rcases (by simpa [erase, hk] using h : e = (k, b) ∨ e ∈ erase m a) with rfl | h
      · exact ⟨List.mem_cons_self, hk⟩
      · exact ⟨List.mem_cons_of_mem _ (ih h).1, (ih h).2⟩

theorem mem_of_mem_insert {m : Memory} {a : Nat} {v : Byte} {e : Host.Cell} (h : e ∈ insert m a v) :
    e = (a, v) ∨ e ∈ m := by
  induction m with
  | nil => simpa [insert] using h
  | cons f m ih =>
    obtain ⟨k, b⟩ := f
    simp only [insert] at h
    split at h
    · simpa using h
    · split at h
      · rcases List.mem_cons.1 h with h | h
        · exact .inl h
        · exact .inr (List.mem_cons_of_mem _ h)
      · rcases List.mem_cons.1 h with h | h
        · exact .inr (h ▸ List.mem_cons_self)
        · exact (ih h).imp_right (List.mem_cons_of_mem _)

theorem sorted_erase {m : Memory} (a : Nat) (h : m.Pairwise fun p q => p.1 < q.1) :
    (erase m a).Pairwise fun p q => p.1 < q.1 := by
  induction m with
  | nil => simp [erase]
  | cons f m ih =>
    obtain ⟨k, b⟩ := f
    obtain ⟨hf, hm⟩ := List.pairwise_cons.1 h
    by_cases hk : k = a
    · simpa [erase, hk] using ih hm
    · simp only [erase, hk, if_false]
      exact List.pairwise_cons.2 ⟨fun e he => hf e (mem_of_mem_erase he).1, ih hm⟩

theorem sorted_insert {m : Memory} (a : Nat) (v : Byte) (h : m.Pairwise fun p q => p.1 < q.1) :
    (insert m a v).Pairwise fun p q => p.1 < q.1 := by
  induction m with
  | nil => simp [insert]
  | cons f m ih =>
    obtain ⟨k, b⟩ := f
    obtain ⟨hf, hm⟩ := List.pairwise_cons.1 h
    simp only [insert]
    split
    · rename_i hlt
      refine List.pairwise_cons.2 ⟨fun e he => ?_, h⟩
      rcases List.mem_cons.1 he with rfl | he
      · exact hlt
      · exact Nat.lt_trans hlt (hf e he)
    · split
      · rename_i hk
        subst hk
        exact List.pairwise_cons.2 ⟨hf, hm⟩
      · refine List.pairwise_cons.2 ⟨fun e he => ?_, ih hm⟩
        rcases mem_of_mem_insert he with rfl | he
        · simp only; omega
        · exact hf e he

/-! ## One write -/

/-- A read after a write: the written byte at its address, the old byte everywhere else. -/
theorem read_write (c : Config) (m : Memory) (a q : Nat) (v : Byte) :
    read c (write c m a v) q = if a = q then v else read c m q := by
  unfold write read
  by_cases hq : a = q
  · subst hq
    split <;> simp [find?_erase, find?_insert, *]
  · split <;> simp [find?_erase, find?_insert, hq]

/-- A write to an address that exists keeps the canonical form. -/
theorem wf_write {c : Config} {m : Memory} {a : Nat} (v : Byte) (h : wf c m) (ha : a < memSize) :
    wf c (write c m a v) := by
  obtain ⟨hs, he⟩ := h
  unfold write
  split
  · exact ⟨sorted_erase a hs, fun e h => he e (mem_of_mem_erase h).1⟩
  · rename_i hv
    refine ⟨sorted_insert a v hs, fun e h => ?_⟩
    rcases mem_of_mem_insert h with rfl | h
    · exact ⟨ha, hv⟩
    · exact he e h

/-! ## Consecutive writes -/

theorem read_writeBytes_outside (c : Config) (m : Memory) (a q : Nat) (vs : List Byte)
    (h : q < a ∨ a + vs.length ≤ q) : read c (writeBytes c m a vs) q = read c m q := by
  induction vs generalizing m a with
  | nil => rfl
  | cons v vs ih =>
    simp only [List.length_cons] at h
    rw [writeBytes, ih _ _ (by omega), read_write, if_neg (by omega)]

theorem read_writeBytes_inside (c : Config) (m : Memory) (a k : Nat) (vs : List Byte) (h : k < vs.length) :
    read c (writeBytes c m a vs) (a + k) = vs[k] := by
  induction vs generalizing m a k with
  | nil => simp at h
  | cons v vs ih =>
    cases k with
    | zero => rw [writeBytes, read_writeBytes_outside _ _ _ _ _ (by omega), read_write, if_pos (by omega)]; rfl
    | succ k =>
      have := ih (write c m a v) (a + 1) k (by simpa using h)
      rw [writeBytes, show a + (k + 1) = a + 1 + k by omega, this]
      rfl

theorem wf_writeBytes {c : Config} {m : Memory} {a : Nat} (vs : List Byte) (h : wf c m)
    (ha : a + vs.length ≤ memSize) : wf c (writeBytes c m a vs) := by
  induction vs generalizing m a with
  | nil => exact h
  | cons v vs ih =>
    simp only [List.length_cons] at ha
    exact ih (wf_write v h (by omega)) (by omega)

theorem wf_nil (c : Config) : wf c [] := ⟨List.Pairwise.nil, by simp⟩

/-! ## What an unlisted cell reads as -/

theorem unlisted_font (c : Config) {h j : Nat} (hh : h < 16) (hj : j < 5) :
    unlisted c (c.fontBase.toNat + 5 * h + j) = (c.fontGlyphs[h])[j] := by
  have hd : (c.fontBase.toNat + 5 * h + j - c.fontBase.toNat) / 5 = h := by omega
  have hm : (c.fontBase.toNat + 5 * h + j - c.fontBase.toNat) % 5 = j := by omega
  have hin : c.fontBase.toNat ≤ c.fontBase.toNat + 5 * h + j ∧
      c.fontBase.toNat + 5 * h + j < c.fontBase.toNat + Config.fontBytes := by
    unfold Config.fontBytes; omega
  unfold unlisted
  simp only [hin, and_self, dif_pos, hd, hm]

theorem unlisted_outside_font (c : Config) {a : Nat}
    (h : a < c.fontBase.toNat ∨ c.fontBase.toNat + 80 ≤ a) : unlisted c a = 0 := by
  unfold unlisted
  exact dif_neg (by unfold Config.fontBytes; omega)

end Sys2Proof.Machine.Memory

namespace Sys2Proof.Machine

/-! ## Memory in a state -/

namespace State

/-- A stored byte reads back. -/
theorem readByte_writeBytes_inside (s : State) (a k : Nat) (bs : List Byte) (h : k < bs.length) :
    (s.writeBytes a bs).readByte (a + k) = bs[k] := Memory.read_writeBytes_inside _ _ _ _ _ h

/-- A byte outside the stored ones reads as before. -/
theorem readByte_writeBytes_outside (s : State) (a q : Nat) (bs : List Byte) (h : q < a ∨ a + bs.length ≤ q) :
    (s.writeBytes a bs).readByte q = s.readByte q := Memory.read_writeBytes_outside _ _ _ _ _ h

@[simp] theorem length_readBytes (s : State) (a n : Nat) : (s.readBytes a n).length = n := by simp [readBytes]

theorem getElem_readBytes (s : State) (a n k : Nat) (h : k < (s.readBytes a n).length) :
    (s.readBytes a n)[k] = s.readByte (a + k) := by simp [readBytes]

theorem length_regsUpTo (s : State) (x : Reg) : (s.regsUpTo x).length = x.val + 1 := by
  simp [regsUpTo]

theorem getElem_regsUpTo (s : State) (x k : Reg) (h : k.val < (s.regsUpTo x).length) :
    (s.regsUpTo x)[k.val] = s.reg k := by
  simp [regsUpTo, reg]

end State

/-! ## The bounds check -/

theorem outOfRange_none {a n : Nat} : outOfRange a n = none ↔ n = 0 ∨ a + n ≤ memSize := by
  unfold outOfRange; split <;> simp_all

/-- Everything the bounds check can do: the access is in range and the body runs, or the lowest address that does not
exist is recorded and only the status changes. -/
theorem guardRange_cases (a n : Nat) (s : State) (body : Result) :
    ((n = 0 ∨ a + n ≤ memSize) ∧ guardRange a n s body = body) ∨
    (0 < n ∧ memSize < a + n ∧ guardRange a n s body = .next (s.raiseFatal (.memoryOutOfBounds (max a memSize)))) := by
  unfold guardRange outOfRange
  by_cases h : n = 0 ∨ a + n ≤ memSize
  · rw [if_pos h]; exact .inl ⟨h, rfl⟩
  · rw [if_neg h]; exact .inr ⟨by omega, by omega, rfl⟩

theorem guardRange_inRange {a n : Nat} (s : State) (body : Result) (h : n = 0 ∨ a + n ≤ memSize) :
    guardRange a n s body = body := by
  unfold guardRange; rw [outOfRange_none.2 h]

theorem guardRange_outside {a n : Nat} (s : State) (body : Result) (h0 : 0 < n) (h : memSize < a + n) :
    guardRange a n s body = .next (s.raiseFatal (.memoryOutOfBounds (max a memSize))) := by
  unfold guardRange outOfRange; rw [if_neg (by omega)]; rfl

/-- An access from `I` that runs past the memory: the lowest address that does not exist is 0x1000, since `I` itself
exists. -/
theorem guardRange_pastIndex {n : Nat} (s : State) (body : Result) (h : memSize < s.dataAddress + n) :
    guardRange s.dataAddress n s body = .next (s.raiseFatal (.memoryOutOfBounds 0x1000)) := by
  have hi : s.dataAddress < memSize := s.i.isLt
  rw [guardRange_outside s body (by omega) h, Nat.max_eq_right (Nat.le_of_lt hi)]

/-- Storing from `I` in range writes the bytes and advances. -/
theorem storeAtIndex_inRange (s : State) (bs : List Byte) (h : s.dataAddress + bs.length ≤ memSize) :
    storeAtIndex bs s = .next ((s.writeBytes s.dataAddress bs).applyEffect .advance) :=
  guardRange_inRange _ _ (.inr h)

/-- Storing from `I` past the memory is fatal, and nothing is written. -/
theorem storeAtIndex_past (s : State) (bs : List Byte) (h : memSize < s.dataAddress + bs.length) :
    storeAtIndex bs s = .next (s.raiseFatal (.memoryOutOfBounds 0x1000)) := guardRange_pastIndex s _ h

@[simp] theorem length_decimalDigits (v : Byte) : (decimalDigits v).length = 3 := rfl

end Sys2Proof.Machine
end

