-- ==== Sys2Proof/Laws/Step.lean ====
section
/-! SUPPORT. What each shared operation of the cycle can do, said once: the stack operations, the bounds check around an
instruction, and the cycle itself. -/

namespace Sys2Proof.Machine

/-! ## Program-counter effects -/

@[simp] theorem nextPc_advance (pc : Word) : nextPc pc .advance = pc + 2 := rfl
@[simp] theorem nextPc_skip (pc : Word) : nextPc pc .skip = pc + 4 := rfl
@[simp] theorem nextPc_jumpTo (pc a : Word) : nextPc pc (.jumpTo a) = a := rfl

/-- A conditional skip adds 4 or 2 (R87). -/
theorem nextPc_skipIf (pc : Word) (c : Bool) : nextPc pc (skipIf c) = if c = true then pc + 4 else pc + 2 := by
  cases c <;> rfl

theorem complete_eq (e : PcEffect) (s : State) : complete e s = .next (s.applyEffect e) := rfl

theorem raise_eq (k : FatalKind) (s : State) : raise k s = .next (s.raiseFatal k) := rfl

/-- A jump to the state's own program counter changes nothing. -/
theorem applyEffect_self (s : State) : s.applyEffect (.jumpTo s.pc) = s := rfl

/-! ## The call stack -/

/-- Everything a push can do (R25, R103): below 16 it stores at the next free slot; at 16 it overflows. -/
theorem pushThen_of_lt {ra : Word} {s : State} (k : State → Result) (h : s.sp.val < 16) :
    pushThen ra s k = k (s.push ra h) := dif_pos h

theorem pushThen_full {ra : Word} {s : State} (k : State → Result) (h : s.sp.val = 16) :
    pushThen ra s k = .next (s.raiseFatal .stackOverflow) := dif_neg (by omega)

/-- Everything a pop can do (R25, R101): above 0 it gives the last slot; at 0 it underflows. -/
theorem popThen_of_pos {s : State} (k : Word → State → Result) (h : s.sp.val ≠ 0) :
    popThen s k = k s.topReturn s.pop := if_neg h

theorem popThen_empty {s : State} (k : Word → State → Result) (h : s.sp.val = 0) :
    popThen s k = .next (s.raiseFatal .stackUnderflow) := if_pos h

/-- `return` with a non-empty stack (R101). -/
theorem exec_ret_of_pos {s : State} (h : s.sp.val ≠ 0) :
    exec .ret s = .next (s.pop.applyEffect (.jumpTo s.topReturn)) := if_neg h

/-- `call` below 16 nested calls (R103). -/
theorem exec_call_of_lt {s : State} (nnn : Addr) (h : s.sp.val < 16) :
    exec (.call nnn) s = .next ((s.push s.returnAddress h).applyEffect (.jumpTo (offsetTarget nnn))) :=
  pushThen_of_lt _ h

/-- `return` with an empty stack (R256). -/
theorem exec_ret_of_zero {s : State} (h : s.sp.val = 0) :
    exec .ret s = .next (s.raiseFatal .stackUnderflow) := if_pos h

/-- `call` with sixteen calls nested (R255). -/
theorem exec_call_full {s : State} (nnn : Addr) (h : s.sp.val = 16) :
    exec (.call nnn) s = .next (s.raiseFatal .stackOverflow) := pushThen_full _ h

/-! ## Key queries -/

/-- The least pressed key is pressed, and no lower one is (R224). -/
theorem leastPressed_eq_some {s : State} {k : Nat} :
    s.leastPressed = some k ↔ k < 16 ∧ s.keys.getLsbD k = true ∧ ∀ j < k, s.keys.getLsbD j = false := by
  unfold State.leastPressed
  rw [List.find?_range_eq_some]
  simp only [List.mem_range, Bool.not_eq_eq_eq_not, Bool.not_true]
  tauto

/-- There is no least pressed key exactly when the mask is zero (R224). -/
theorem leastPressed_eq_none {s : State} : s.leastPressed = none ↔ s.keys = 0 := by
  unfold State.leastPressed
  rw [List.find?_eq_none]
  constructor
  · intro h
    apply BitVec.eq_of_getLsbD_eq
    intro j hj
    simpa using h j (List.mem_range.2 hj)
  · intro h k _
    simp [h]

/-! ## The cycle -/

theorem step_running {s : State} (h : s.status = .running) : step s = cycleWith exec s := by
  unfold step; rw [h]

theorem step_fatal {s : State} {k : FatalKind} (h : s.status = .fatal k) : step s = .fault (.stopped k) := by
  unfold step; rw [h]

/-- A cycle whose bytes exist and decode runs the instruction (R86). -/
theorem step_eq_exec {s : State} {i : Instr} (h : s.status = .running) (hpc : s.pc.toNat + 2 ≤ memSize)
    (hd : decode s.fetchWord = some i) : step s = exec i s := by
  rw [step_running h, cycleWith, guardRange_inRange _ _ (.inr hpc), decodeAndRun, hd]

/-- Everything one cycle of a running machine that answers a next state can have done, whatever executes the instruction
(R86, R258): run an instruction, or raise one of the two fatal errors of fetch and decode. -/
theorem cycleWith_cases {run : Instr → State → Result} {s t : State} (h : cycleWith run s = .next t) :
    (s.pc.toNat + 2 ≤ memSize ∧ ∃ i, decode s.fetchWord = some i ∧ run i s = .next t) ∨
      (s.pc.toNat + 2 ≤ memSize ∧ decode s.fetchWord = none ∧ t = s.raiseFatal (.invalidOpcode s.fetchWord)) ∨
      (memSize < s.pc.toNat + 2 ∧ t = s.raiseFatal (.memoryOutOfBounds (max s.pc.toNat memSize))) := by
  rw [cycleWith] at h
  rcases guardRange_cases s.pc.toNat 2 s (decodeAndRun run s.fetchWord s) with ⟨hin, he⟩ | ⟨_, hout, he⟩
  · rw [he, decodeAndRun] at h
    have hpc : s.pc.toNat + 2 ≤ memSize := by omega
    cases hd : decode s.fetchWord with
    | none =>
      rw [hd] at h
      exact .inr (.inl ⟨hpc, rfl, (Host.Outcome.next.inj h).symm⟩)
    | some i =>
      rw [hd] at h
      exact .inl ⟨hpc, i, rfl, h⟩
  · rw [he] at h
    exact .inr (.inr ⟨hout, (Host.Outcome.next.inj h).symm⟩)

/-- Everything a step that answers a next state can have done (R86, R258). -/
theorem step_cases {s t : State} (h : step s = .next t) :
    s.status = .running ∧
    ((s.pc.toNat + 2 ≤ memSize ∧ ∃ i, decode s.fetchWord = some i ∧ exec i s = .next t) ∨
      (s.pc.toNat + 2 ≤ memSize ∧ decode s.fetchWord = none ∧ t = s.raiseFatal (.invalidOpcode s.fetchWord)) ∨
      (memSize < s.pc.toNat + 2 ∧ t = s.raiseFatal (.memoryOutOfBounds (max s.pc.toNat memSize)))) := by
  have hr : s.status = .running := by
    cases hs : s.status with
    | running => rfl
    | fatal k => rw [step_fatal hs] at h; cases h
  rw [step_running hr] at h
  exact ⟨hr, cycleWith_cases h⟩

end Sys2Proof.Machine
end

