-- ==== Sys2Proof/Laws/Meanings.lean ====
section
/-! SUPPORT. Everything the meanings with more than one outcome can answer, said once, so that a case analysis over the
instructions cites these and unfolds no meaning. The other meanings answer their next state by definition. -/

namespace Sys2Proof.Machine

/-- A sprite whose bytes exist is composed, and VF takes its collision (R192). -/
theorem exec_draw_inRange (x y : Reg) {n : Nat} {s : State} (h : n = 0 ∨ s.dataAddress + n ≤ memSize) :
    exec (.draw x y n) s =
      .next (((s.setFb (composeSprite s.cfg (s.reg x) (s.reg y).toNat (s.readBytes s.dataAddress n) s.fb).1).setReg VF
        (Flags.ofBool (composeSprite s.cfg (s.reg x) (s.reg y).toNat (s.readBytes s.dataAddress n) s.fb).2)).applyEffect
          .advance) :=
  guardRange_inRange _ _ h

/-- A sprite that runs past memory is a fatal error (R53, R257). -/
theorem exec_draw_past (x y : Reg) {n : Nat} {s : State} (h : memSize < s.dataAddress + n) :
    exec (.draw x y n) s = .next (s.raiseFatal (.memoryOutOfBounds 0x1000)) :=
  guardRange_pastIndex _ _ (by omega)

/-- Everything `draw` can answer. -/
theorem exec_draw_cases (x y : Reg) (n : Nat) (s : State) :
    ((n = 0 ∨ s.dataAddress + n ≤ memSize) ∧ exec (.draw x y n) s =
      .next (((s.setFb (composeSprite s.cfg (s.reg x) (s.reg y).toNat (s.readBytes s.dataAddress n) s.fb).1).setReg VF
        (Flags.ofBool (composeSprite s.cfg (s.reg x) (s.reg y).toNat (s.readBytes s.dataAddress n) s.fb).2)).applyEffect
          .advance)) ∨
    (0 < n ∧ memSize < s.dataAddress + n ∧
      exec (.draw x y n) s = .next (s.raiseFatal (.memoryOutOfBounds 0x1000))) := by
  by_cases h : n = 0 ∨ s.dataAddress + n ≤ memSize
  · exact .inl ⟨h, exec_draw_inRange x y h⟩
  · exact .inr ⟨by omega, by omega, exec_draw_past x y (by omega)⟩

/-- Everything a store at `I` can answer (R53, R160). -/
theorem storeAtIndex_cases (bs : List Byte) (s : State) :
    storeAtIndex bs s = .next ((s.writeBytes s.dataAddress bs).applyEffect .advance) ∨
    (memSize < s.dataAddress + bs.length ∧
      storeAtIndex bs s = .next (s.raiseFatal (.memoryOutOfBounds 0x1000))) := by
  by_cases h : s.dataAddress + bs.length ≤ memSize
  · exact .inl (storeAtIndex_inRange s _ h)
  · exact .inr ⟨by omega, storeAtIndex_past _ _ (by omega)⟩

/-- Everything `load-regs` can answer (R166). -/
theorem exec_loadRegs_cases (x : Reg) (s : State) :
    (s.dataAddress + (x.val + 1) ≤ memSize ∧ exec (.loadRegs x) s =
      .next ((s.setRegsUpTo x fun k => s.readByte (s.dataAddress + k)).applyEffect .advance)) ∨
    (memSize < s.dataAddress + (x.val + 1) ∧
      exec (.loadRegs x) s = .next (s.raiseFatal (.memoryOutOfBounds 0x1000))) := by
  by_cases h : s.dataAddress + (x.val + 1) ≤ memSize
  · exact .inl ⟨h, guardRange_inRange _ _ (.inr h)⟩
  · exact .inr ⟨by omega, guardRange_pastIndex _ _ (by omega)⟩

/-- A key wait with no key pressed changes nothing (R224). -/
theorem exec_waitKey_none (x : Reg) {s : State} (h : s.leastPressed = none) : exec (.waitKey x) s = .next s := by
  show execWaitKey x s = _
  rw [execWaitKey, h]; rfl

/-- A key wait with a key pressed loads the least one (R224). -/
theorem exec_waitKey_some (x : Reg) {s : State} {k : Nat} (h : s.leastPressed = some k) :
    exec (.waitKey x) s = .next ((s.setReg x (BitVec.ofNat 8 k)).applyEffect .advance) := by
  show execWaitKey x s = _
  rw [execWaitKey, h]; rfl

/-- A digit above 15 has no glyph (R163, R253). -/
theorem exec_loadFont_above {x : Reg} {s : State} (h : 15 < (s.reg x).toNat) :
    exec (.loadFont x) s = .next (s.raiseFatal (.invalidCharacter (s.reg x))) := if_pos h

/-- A digit's glyph address (R163). -/
theorem exec_loadFont_digit {x : Reg} {s : State} (h : ¬ 15 < (s.reg x).toNat) :
    exec (.loadFont x) s = .next ((s.setIndex (s.glyphAddress (s.reg x))).applyEffect .advance) := if_neg h

/-- Whatever the instruction, it answers a next state: it raises a fatal error, or it keeps the status. -/
theorem exec_raises_or_runs (i : Instr) (s : State) :
    (∃ k, exec i s = .next (s.raiseFatal k)) ∨ ∃ t, exec i s = .next t ∧ t.status = s.status := by
  have store : ∀ bs, (∃ k, storeAtIndex bs s = .next (s.raiseFatal k)) ∨
      ∃ t, storeAtIndex bs s = .next t ∧ t.status = s.status := fun bs =>
    (storeAtIndex_cases bs s).elim (fun h => .inr ⟨_, h, rfl⟩) fun h => .inl ⟨_, h.2⟩
  cases i with
  | ret =>
    by_cases h : s.sp.val = 0
    · exact .inl ⟨_, exec_ret_of_zero h⟩
    · exact .inr ⟨_, exec_ret_of_pos h, rfl⟩
  | call nnn =>
    by_cases h : s.sp.val < 16
    · exact .inr ⟨_, exec_call_of_lt nnn h, rfl⟩
    · exact .inl ⟨_, exec_call_full nnn (by omega)⟩
  | draw x y n =>
    rcases exec_draw_cases x y n s with ⟨_, h⟩ | ⟨_, _, h⟩
    · exact .inr ⟨_, h, rfl⟩
    · exact .inl ⟨_, h⟩
  | waitKey x =>
    cases h : s.leastPressed with
    | none => exact .inr ⟨s, exec_waitKey_none x h, rfl⟩
    | some k => exact .inr ⟨_, exec_waitKey_some x h, rfl⟩
  | loadFont x =>
    by_cases h : 15 < (s.reg x).toNat
    · exact .inl ⟨_, exec_loadFont_above h⟩
    · exact .inr ⟨_, exec_loadFont_digit h, rfl⟩
  | storeBcd x => exact store _
  | storeRegs x => exact store _
  | loadRegs x =>
    rcases exec_loadRegs_cases x s with ⟨_, h⟩ | ⟨_, h⟩
    · exact .inr ⟨_, h, rfl⟩
    · exact .inl ⟨_, h⟩
  | _ => exact .inr ⟨_, rfl, rfl⟩

end Sys2Proof.Machine
end

