-- ==== Sys2Proof/Laws/Cycle.lean ====
section
/-! SUPPORT. The cycle on a given random byte: what an instruction does there, everything the cycle can do, and that no
instruction reads the environment's counter but the free byte that it stands for. -/

namespace Sys2Proof.Machine

/-- The state with another count of the inputs supplied. -/
def State.withDraws (d : Nat) (s : State) : State := { s with draws := d }

@[simp] theorem withDraws_toBlock (d : Nat) (s : State) : (s.withDraws d).toBlock = s.toBlock := rfl
@[simp] theorem withDraws_draws (d : Nat) (s : State) : (s.withDraws d).draws = d := rfl

/-- Two states with one block differ at most in the count. -/
theorem eq_withDraws {s t : State} (h : t.toBlock = s.toBlock) : t = s.withDraws t.draws := by
  cases s; cases t; cases h; rfl

@[simp] theorem blockOf_next (s : State) : blockOf (.next s) = .next s.toBlock := rfl

/-! ## The instruction on a given byte -/

/-- `random` on a given byte (R142). -/
theorem execOn_random (r : Byte) (x : Reg) (kk : Byte) (s : State) :
    execOn r (.random x kk) s = .next ((s.setReg x (r &&& kk)).applyEffect .advance) := rfl

/-- Every other instruction takes no notice of the byte (R86). -/
theorem execOn_other (r : Byte) {i : Instr} (s : State) (h : ∀ x kk, i ≠ .random x kk) : execOn r i s = exec i s := by
  cases i with
  | random x kk => exact absurd rfl (h x kk)
  | _ => rfl

/-- On any byte, every instruction answers a next state. -/
theorem execOn_answers_next (r : Byte) (i : Instr) (s : State) : ∃ t, execOn r i s = .next t := by
  by_cases h : ∃ x kk, i = .random x kk
  · obtain ⟨x, kk, rfl⟩ := h
    exact ⟨_, execOn_random r x kk s⟩
  · rw [execOn_other r s fun x kk e => h ⟨x, kk, e⟩]
    rcases exec_raises_or_runs i s with ⟨_, he⟩ | ⟨_, he, _⟩
    · exact ⟨_, he⟩
    · exact ⟨_, he⟩

/-- `exec` is the instruction on the free byte, but for the count (R86). -/
theorem blockOf_exec (i : Instr) (s : State) : blockOf (exec i s) = blockOf (execOn (Config.drawByte s.draws) i s) := by
  cases i <;> rfl

/-! ## No instruction reads the count -/

theorem guardRange_withDraws {a n d : Nat} {s : State} {body body' : Result}
    (h : body' = mapNext (·.withDraws d) body) :
    guardRange a n (s.withDraws d) body' = mapNext (·.withDraws d) (guardRange a n s body) := by
  subst h
  unfold guardRange
  cases outOfRange a n <;> rfl

theorem mapNext_of_next {f : State → State} {a a' : Result} {t : State} (h : a = .next t) (h' : a' = .next (f t)) :
    a' = mapNext f a := by
  rw [h, h']; rfl

theorem execOn_withDraws (r : Byte) (i : Instr) (d : Nat) (s : State) :
    execOn r i (s.withDraws d) = mapNext (·.withDraws d) (execOn r i s) := by
  cases i with
  | ret =>
    by_cases h : s.sp.val = 0
    · exact mapNext_of_next (exec_ret_of_zero h) (exec_ret_of_zero (s := s.withDraws d) h)
    · exact mapNext_of_next (exec_ret_of_pos h) (exec_ret_of_pos (s := s.withDraws d) h)
  | call nnn =>
    by_cases h : s.sp.val < 16
    · exact mapNext_of_next (exec_call_of_lt nnn h) (exec_call_of_lt (s := s.withDraws d) nnn h)
    · have full : s.sp.val = 16 := by omega
      exact mapNext_of_next (exec_call_full nnn full) (exec_call_full (s := s.withDraws d) nnn full)
  | draw x y n => exact guardRange_withDraws rfl
  | storeBcd x => exact guardRange_withDraws rfl
  | storeRegs x => exact guardRange_withDraws rfl
  | loadRegs x => exact guardRange_withDraws rfl
  | loadFont x =>
    by_cases h : 15 < (s.reg x).toNat
    · exact mapNext_of_next (exec_loadFont_above h) (exec_loadFont_above (s := s.withDraws d) h)
    · exact mapNext_of_next (exec_loadFont_digit h) (exec_loadFont_digit (s := s.withDraws d) h)
  | waitKey x =>
    cases h : s.leastPressed with
    | none => exact mapNext_of_next (exec_waitKey_none x h) (exec_waitKey_none (s := s.withDraws d) x h)
    | some k => exact mapNext_of_next (exec_waitKey_some x h) (exec_waitKey_some (s := s.withDraws d) x h)
  | _ => rfl

/-! ## The cycle -/

theorem cycle_running {r : Byte} {s : State} (h : s.status = .running) : s.cycle r = cycleWith (execOn r) s := by
  unfold State.cycle; rw [h]

theorem cycle_fatal {r : Byte} {s : State} {k : FatalKind} (h : s.status = .fatal k) :
    s.cycle r = .fault (.stopped k) := by
  unfold State.cycle; rw [h]

/-- A cycle whose bytes exist and decode runs the instruction (R86). -/
theorem cycle_eq_execOn {r : Byte} {s : State} {i : Instr} (h : s.status = .running) (hpc : s.pc.toNat + 2 ≤ memSize)
    (hd : decode s.fetchWord = some i) : s.cycle r = execOn r i s := by
  rw [cycle_running h, cycleWith, guardRange_inRange _ _ (.inr hpc), decodeAndRun, hd]

/-- Everything a cycle that answers a next state can have done (R86, R258). -/
theorem cycle_cases {r : Byte} {s t : State} (h : s.cycle r = .next t) :
    s.status = .running ∧
    ((s.pc.toNat + 2 ≤ memSize ∧ ∃ i, decode s.fetchWord = some i ∧ execOn r i s = .next t) ∨
      (s.pc.toNat + 2 ≤ memSize ∧ decode s.fetchWord = none ∧ t = s.raiseFatal (.invalidOpcode s.fetchWord)) ∨
      (memSize < s.pc.toNat + 2 ∧ t = s.raiseFatal (.memoryOutOfBounds (max s.pc.toNat memSize)))) := by
  have hr : s.status = .running := by
    cases hs : s.status with
    | running => rfl
    | fatal k => rw [cycle_fatal hs] at h; cases h
  refine ⟨hr, ?_⟩
  rw [cycle_running hr] at h
  exact cycleWith_cases h

/-- A cycle of a running machine always answers a next state (R86). -/
theorem cycle_answers_next (r : Byte) {s : State} (h : s.status = .running) : ∃ t, s.cycle r = .next t := by
  rw [cycle_running h, cycleWith]
  rcases guardRange_cases s.pc.toNat 2 s (decodeAndRun (execOn r) s.fetchWord s) with ⟨_, he⟩ | ⟨_, _, he⟩
  · rw [he, decodeAndRun]
    cases decode s.fetchWord with
    | none => exact ⟨_, rfl⟩
    | some i => exact execOn_answers_next r i s
  · exact ⟨_, he⟩

end Sys2Proof.Machine
end

