-- ==== Sys2Proof/Laws/Display.lean ====
section
/-! SUPPORT. The Display Surface's steps, said once: which pixels of a row a placed byte lights, that the rows of a sprite
are distinct, and what composing a sprite does to each row and to the collision flag. -/

namespace Sys2Proof.Machine

/-! ## Placement (R193) -/

/-- The shift amount of R193 is non-negative exactly up to column 56. -/
theorem place_left (c : Config) (b cx : Byte) (h : cx.toNat ≤ 56) :
    place c b cx = b.setWidth 64 <<< (56 - cx.toNat) := by
  unfold place
  rw [if_pos (by omega)]
  congr 1; omega

theorem place_wrapped (c : Config) (b cx : Byte) (h : 56 < cx.toNat) (hw : c.wrapX = true) :
    place c b cx = (b.setWidth 64).rotateRight ((cx.toNat - 56) % 64) := by
  unfold place
  simp only [hw, if_true]
  rw [if_neg (by omega)]
  congr 2; omega

theorem place_clipped (c : Config) (b cx : Byte) (h : 56 < cx.toNat) (hw : c.wrapX = false) :
    place c b cx = b.setWidth 64 >>> (cx.toNat - 56) := by
  unfold place
  simp only [hw, Bool.false_eq_true, if_false]
  rw [if_neg (by omega)]
  split
  · congr 1; omega
  · apply BitVec.eq_of_getLsbD_eq
    intro k _
    rw [BitVec.getLsbD_ushiftRight, BitVec.getLsbD_setWidth, BitVec.getLsbD_of_ge b _ (by omega)]
    simp

/-- A bit of a rotated row comes from the bit that many places up, around the row (R7). -/
theorem getLsbD_rotateRight_row (w : PixelRow) (r j : Nat) (hr : r < 64) (hj : j < 64) :
    (w.rotateRight r).getLsbD j = w.getLsbD ((j + r) % 64) := by
  rw [BitVec.getLsbD_rotateRight, Nat.mod_eq_of_lt hr]
  by_cases h : j < 64 - r
  · rw [decide_eq_true h, cond_true]; congr 1; omega
  · rw [decide_eq_false h, cond_false, decide_eq_true hj, Bool.true_and]; congr 1; omega

/-- The pixels a placed byte lights: those its 1 bits fall on, wrapped or clipped (R193, R197). -/
theorem getLsbD_place (c : Config) (b cx : Byte) (col : Fin 64) :
    (place c b cx).getLsbD (63 - col.val) = true ↔
      ∃ j, j < 8 ∧ b.getLsbD (7 - j) = true ∧ fallsOn c.wrapX 64 (cx.toNat + j) col.val := by
  have hcol := col.isLt
  have hcx := cx.isLt
  have low : ∀ m, b.getLsbD m = true → m < 8 := fun m hm => BitVec.lt_of_getLsbD hm
  by_cases h : cx.toNat ≤ 56
  · rw [place_left c b cx h, BitVec.getLsbD_shiftLeft, BitVec.getLsbD_setWidth]
    simp only [Bool.and_eq_true, decide_eq_true_eq, Bool.not_eq_true', decide_eq_false_iff_not]
    constructor
    · rintro ⟨⟨_, h1⟩, _, h2⟩
      have := low _ h2
      exact ⟨col.val - cx.toNat, by omega, by rwa [show 7 - (col.val - cx.toNat) = 63 - col.val - (56 - cx.toNat) by omega],
        .inl (by omega)⟩
    · rintro ⟨j, hj, hb, hf⟩
      have hc : cx.toNat + j = col.val := by
        rcases hf with hf | ⟨_, hf⟩
        · exact hf
        · omega
      exact ⟨⟨by omega, by omega⟩, by omega, by rwa [show 63 - col.val - (56 - cx.toNat) = 7 - j by omega]⟩
  · cases hw : c.wrapX
    · rw [place_clipped c b cx (by omega) hw, BitVec.getLsbD_ushiftRight, BitVec.getLsbD_setWidth]
      simp only [Bool.and_eq_true, decide_eq_true_eq]
      constructor
      · rintro ⟨_, h2⟩
        have := low _ h2
        exact ⟨col.val - cx.toNat, by omega,
          by rwa [show 7 - (col.val - cx.toNat) = cx.toNat - 56 + (63 - col.val) by omega], .inl (by omega)⟩
      · rintro ⟨j, hj, hb, hf⟩
        have hc : cx.toNat + j = col.val := by
          rcases hf with hf | ⟨hf, _⟩
          · exact hf
          · cases hf
        exact ⟨by omega, by rwa [show cx.toNat - 56 + (63 - col.val) = 7 - j by omega]⟩
    · rw [place_wrapped c b cx (by omega) hw, getLsbD_rotateRight_row _ _ _ (by omega) (by omega),
        BitVec.getLsbD_setWidth]
      simp only [Bool.and_eq_true, decide_eq_true_eq]
      constructor
      · rintro ⟨_, h2⟩
        have := low _ h2
        refine ⟨7 - (63 - col.val + (cx.toNat - 56) % 64) % 64, by omega, ?_, .inr ⟨rfl, by omega⟩⟩
        rwa [show 7 - (7 - (63 - col.val + (cx.toNat - 56) % 64) % 64) = (63 - col.val + (cx.toNat - 56) % 64) % 64 by omega]
      · rintro ⟨j, hj, hb, hf⟩
        have hc : (cx.toNat + j) % 64 = col.val := by
          rcases hf with hf | ⟨_, hf⟩
          · omega
          · exact hf
        exact ⟨by omega, by rwa [show (63 - col.val + (cx.toNat - 56) % 64) % 64 = 7 - j by omega]⟩

/-! ## Target rows (R194) -/

/-- The row a sprite row goes to is the one it falls on (R194). -/
theorem targetRow_eq_some (c : Config) (t : Nat) (r : Fin 32) :
    targetRow c t = some r ↔ fallsOn c.wrapY 32 t r.val := by
  have hr := r.isLt
  unfold targetRow fallsOn
  split
  · rw [Option.some.injEq, Fin.ext_iff]
    constructor
    · exact .inl
    · rintro (h | ⟨_, h⟩)
      · exact h
      · simp only; omega
  · cases hw : c.wrapY
    · simp; omega
    · rw [if_pos rfl, Option.some.injEq, Fin.ext_iff]
      constructor
      · exact fun h => .inr ⟨rfl, h⟩
      · rintro (h | ⟨_, h⟩)
        · omega
        · exact h

/-- Fewer than 32 rows apart, two sprite rows never go to one row (R194). -/
theorem targetRow_injective (c : Config) {t u : Nat} {r : Fin 32} (ht : targetRow c t = some r)
    (hu : targetRow c u = some r) (h : t ≤ u) (hd : u < t + 32) : t = u := by
  rw [targetRow_eq_some] at ht hu
  unfold fallsOn at ht hu
  have := r.isLt
  omega

/-! ## Row composition (R195) -/

/-- The two forms of R195's collision agree: a bit of the placed word was lit before. -/
theorem rowCollides_xor (w old : PixelRow) : Flags.rowCollides w (old ^^^ w) = true ↔ w &&& old ≠ 0 := by
  have key : w &&& (old ^^^ w) = w ↔ w &&& old = 0 := by
    constructor <;>
    · intro h
      apply BitVec.eq_of_getLsbD_eq
      intro k hk
      have := congrArg (BitVec.getLsbD · k) h
      have hz : (0 : PixelRow).getLsbD k = false := BitVec.getLsbD_zero
      simp only [BitVec.getLsbD_and, BitVec.getLsbD_xor, hz] at this ⊢
      revert this
      cases w.getLsbD k <;> cases old.getLsbD k <;> decide
  unfold Flags.rowCollides
  rw [bne_iff_ne, ne_eq, key]

theorem composeRow_dropped {c : Config} {t : Nat} (cx b : Byte) (fb : Vector PixelRow 32) (h : targetRow c t = none) :
    composeRow c cx b t fb = (fb, false) := by
  unfold composeRow; rw [h]

theorem composeRow_drawn {c : Config} {t : Nat} {r : Fin 32} (cx b : Byte) (fb : Vector PixelRow 32)
    (h : targetRow c t = some r) :
    composeRow c cx b t fb =
      (fb.set r.val (fb[r.val] ^^^ place c b cx), Flags.rowCollides (place c b cx) (fb[r.val] ^^^ place c b cx)) := by
  unfold composeRow; rw [h]

/-- One sprite row leaves the rows it does not go to alone. -/
theorem composeRow_missed {c : Config} {t : Nat} {r : Fin 32} (cx b : Byte) (fb : Vector PixelRow 32)
    (h : targetRow c t ≠ some r) : (composeRow c cx b t fb).1[r.val] = fb[r.val] := by
  cases hr : targetRow c t with
  | none => rw [composeRow_dropped cx b fb hr]
  | some r' =>
    rw [composeRow_drawn cx b fb hr, Vector.getElem_set, if_neg]
    intro e
    exact h (by rw [hr, Fin.ext e])

/-- One sprite row flips its placed word in the row it goes to. -/
theorem composeRow_hit {c : Config} {t : Nat} {r : Fin 32} (cx b : Byte) (fb : Vector PixelRow 32)
    (h : targetRow c t = some r) : (composeRow c cx b t fb).1[r.val] = fb[r.val] ^^^ place c b cx := by
  rw [composeRow_drawn cx b fb h, Vector.getElem_set_self]

/-- One sprite row collides exactly when a pixel of its placed word was lit in the row it goes to (R195). -/
theorem composeRow_collides (c : Config) (t : Nat) (cx b : Byte) (fb : Vector PixelRow 32) :
    (composeRow c cx b t fb).2 = true ↔ ∃ r, targetRow c t = some r ∧ place c b cx &&& fb[r.val] ≠ 0 := by
  cases hr : targetRow c t with
  | none => rw [composeRow_dropped cx b fb hr]; simp
  | some r =>
    rw [composeRow_drawn cx b fb hr, rowCollides_xor]
    exact ⟨fun h => ⟨r, rfl, h⟩, fun ⟨r', h', h⟩ => Option.some.inj h' ▸ h⟩

/-! ## The whole sprite (R192, R196) -/

/-- Composing leaves a row alone that no sprite row goes to. -/
theorem composeSprite_row_missed (c : Config) (cx : Byte) (t : Nat) (bs : List Byte) (fb : Vector PixelRow 32)
    (r : Fin 32) (h : ∀ k < bs.length, targetRow c (t + k) ≠ some r) :
    (composeSprite c cx t bs fb).1[r.val] = fb[r.val] := by
  induction bs generalizing t fb with
  | nil => rfl
  | cons b bs ih =>
    have tail : ∀ k < bs.length, targetRow c (t + 1 + k) ≠ some r := fun k hk => by
      have := h (k + 1) (by simpa using hk)
      rwa [show t + (k + 1) = t + 1 + k by omega] at this
    simp only [composeSprite]
    have head : targetRow c t ≠ some r := h 0 (by simp)
    rw [ih _ _ tail, composeRow_missed cx b fb head]

/-- Composing a sprite of at most 32 rows flips, in the row that its `k`-th byte goes to, the pixels of that byte's placed
word (R195). -/
theorem composeSprite_row_hit (c : Config) (cx : Byte) (t : Nat) (bs : List Byte) (fb : Vector PixelRow 32)
    (r : Fin 32) (k : Nat) (hk : k < bs.length) (hl : bs.length ≤ 32) (h : targetRow c (t + k) = some r) :
    (composeSprite c cx t bs fb).1[r.val] = fb[r.val] ^^^ place c bs[k] cx := by
  induction bs generalizing t fb k with
  | nil => simp at hk
  | cons b bs ih =>
    simp only [List.length_cons] at hk hl
    simp only [composeSprite]
    cases k with
    | zero =>
      rw [Nat.add_zero] at h
      have later : ∀ j < bs.length, targetRow c (t + 1 + j) ≠ some r := fun j hj hj' => by
        have := targetRow_injective c h hj' (by omega) (by omega)
        omega
      rw [composeSprite_row_missed _ _ _ _ _ _ later, composeRow_hit cx b fb h]
      rfl
    | succ k =>
      have h' : targetRow c (t + 1 + k) = some r := by rwa [show t + 1 + k = t + (k + 1) by omega]
      have earlier : targetRow c t ≠ some r := fun h0 => by
        have := targetRow_injective c h0 h (by omega) (by omega)
        omega
      rw [ih _ _ k (by omega) (by omega) h', composeRow_missed cx b fb earlier]
      rfl

/-- Composing a sprite of at most 32 rows collides exactly when a placed word has a pixel that was lit in the row it goes to
(R195, R196). -/
theorem composeSprite_collides (c : Config) (cx : Byte) (t : Nat) (bs : List Byte) (fb : Vector PixelRow 32)
    (hl : bs.length ≤ 32) :
    (composeSprite c cx t bs fb).2 = true ↔
      ∃ (k : Nat) (hk : k < bs.length) (r : Fin 32), targetRow c (t + k) = some r ∧ place c bs[k] cx &&& fb[r.val] ≠ 0 := by
  induction bs generalizing t fb with
  | nil => simp [composeSprite]
  | cons b bs ih =>
    simp only [List.length_cons] at hl
    simp only [composeSprite]
    rw [Bool.or_eq_true, composeRow_collides, ih _ _ (by omega)]
    have kept : ∀ (k : Nat) (_ : k < bs.length) (r : Fin 32), targetRow c (t + 1 + k) = some r →
        (composeRow c cx b t fb).1[r.val] = fb[r.val] := fun k hk r h1 =>
      composeRow_missed cx b fb fun h0 => by
        have := targetRow_injective c h0 h1 (by omega) (by omega)
        omega
    constructor
    · rintro (⟨r, h1, h2⟩ | ⟨k, hk, r, h1, h2⟩)
      · exact ⟨0, by simp, r, h1, h2⟩
      · rw [kept k hk r h1] at h2
        exact ⟨k + 1, by simpa using hk, r, by rwa [show t + (k + 1) = t + 1 + k by omega], h2⟩
    · rintro ⟨k, hk, r, h1, h2⟩
      cases k with
      | zero => exact .inl ⟨r, h1, h2⟩
      | succ k =>
        have h1' : targetRow c (t + 1 + k) = some r := by rwa [show t + 1 + k = t + (k + 1) by omega]
        have hk' : k < bs.length := by simpa using hk
        exact .inr ⟨k, hk', r, h1', by rw [kept k hk' r h1']; exact h2⟩

/-! ## The sprite, pixel by pixel (R197) -/

theorem readBytes_length (s : State) (a n : Nat) : (s.readBytes a n).length = n := by simp [State.readBytes]

/-- A sprite covers a pixel exactly when the placed word of a byte lights it in the row that byte goes to. -/
theorem spriteCovers_iff (s : State) (cx cy : Byte) (n : Nat) (r : Fin 32) (c : Fin 64) :
    SpriteCovers s cx cy n r c ↔ ∃ (k : Nat) (hk : k < (s.readBytes s.dataAddress n).length),
      targetRow s.cfg (cy.toNat + k) = some r ∧
        (place s.cfg (s.readBytes s.dataAddress n)[k] cx).getLsbD (63 - c.val) = true := by
  unfold SpriteCovers
  constructor
  · rintro ⟨k, j, hk, hj, hb, hr, hc⟩
    exact ⟨k, by rwa [readBytes_length], (targetRow_eq_some _ _ _).2 hr,
      (getLsbD_place _ _ _ _).2 ⟨j, hj, by simpa [State.readBytes] using hb, hc⟩⟩
  · rintro ⟨k, hk, hr, hp⟩
    obtain ⟨j, hj, hb, hc⟩ := (getLsbD_place _ _ _ _).1 hp
    exact ⟨k, j, by rwa [readBytes_length] at hk, hj, by simpa [State.readBytes] using hb,
      (targetRow_eq_some _ _ _).1 hr, hc⟩

/-- Composing a sprite of at most 15 bytes flips exactly the pixels it covers (R195, R197). -/
theorem composeSprite_pixel (s : State) (cx cy : Byte) {n : Nat} (hn : n ≤ 15) (r : Fin 32) (c : Fin 64) :
    (composeSprite s.cfg cx cy.toNat (s.readBytes s.dataAddress n) s.fb).1[r.val].getLsbD (63 - c.val) = true ↔
      ¬ (s.pixel r c = true ↔ SpriteCovers s cx cy n r c) := by
  have hl := readBytes_length s s.dataAddress n
  unfold State.pixel
  rw [spriteCovers_iff]
  by_cases h : ∃ k, k < (s.readBytes s.dataAddress n).length ∧ targetRow s.cfg (cy.toNat + k) = some r
  · obtain ⟨k, hk, hr⟩ := h
    rw [composeSprite_row_hit s.cfg cx cy.toNat _ s.fb r k hk (by omega) hr, BitVec.getLsbD_xor]
    have covered : (∃ (k : Nat) (hk : k < (s.readBytes s.dataAddress n).length),
        targetRow s.cfg (cy.toNat + k) = some r ∧
          (place s.cfg (s.readBytes s.dataAddress n)[k] cx).getLsbD (63 - c.val) = true) ↔
        (place s.cfg (s.readBytes s.dataAddress n)[k] cx).getLsbD (63 - c.val) = true := by
      constructor
      · rintro ⟨k', hk', hr', hp⟩
        have : k' = k := by
          rcases Nat.le_total k k' with h | h
          · have := targetRow_injective s.cfg hr hr' (by omega) (by omega); omega
          · have := targetRow_injective s.cfg hr' hr (by omega) (by omega); omega
        subst this; exact hp
      · exact fun hp => ⟨k, hk, hr, hp⟩
    rw [covered]
    cases s.fb[r.val].getLsbD (63 - c.val) <;>
      cases (place s.cfg (s.readBytes s.dataAddress n)[k] cx).getLsbD (63 - c.val) <;> decide
  · have missed : ∀ k < (s.readBytes s.dataAddress n).length, targetRow s.cfg (cy.toNat + k) ≠ some r :=
      fun k hk hr => h ⟨k, hk, hr⟩
    rw [composeSprite_row_missed s.cfg cx cy.toNat _ s.fb r missed]
    have none_covers : ¬ ∃ (k : Nat) (hk : k < (s.readBytes s.dataAddress n).length),
        targetRow s.cfg (cy.toNat + k) = some r ∧
          (place s.cfg (s.readBytes s.dataAddress n)[k] cx).getLsbD (63 - c.val) = true :=
      fun ⟨k, hk, hr, _⟩ => missed k hk hr
    simp only [none_covers, iff_false, Classical.not_not]

/-- Two rows have a lit pixel in common exactly when their AND is not zero. -/
theorem and_ne_zero_iff_pixel (w f : PixelRow) :
    w &&& f ≠ 0 ↔ ∃ c : Fin 64, f.getLsbD (63 - c.val) = true ∧ w.getLsbD (63 - c.val) = true := by
  constructor
  · intro h
    apply Classical.byContradiction
    intro hn
    apply h
    apply BitVec.eq_of_getLsbD_eq
    intro k hk
    have hz : (0 : PixelRow).getLsbD k = false := BitVec.getLsbD_zero
    have off : ¬ (f.getLsbD k = true ∧ w.getLsbD k = true) := fun e => hn ⟨⟨63 - k, by omega⟩, by
      rwa [show 63 - (⟨63 - k, by omega⟩ : Fin 64).val = k from by show 63 - (63 - k) = k; omega]⟩
    rw [BitVec.getLsbD_and, hz]
    revert off
    cases w.getLsbD k <;> cases f.getLsbD k <;> decide
  · rintro ⟨c, h1, h2⟩ h0
    have := congrArg (BitVec.getLsbD · (63 - c.val)) h0
    simp [h1, h2] at this

/-- Composing a sprite of at most 15 bytes collides exactly when it covers a lit pixel (R196, R197). -/
theorem composeSprite_flag (s : State) (cx cy : Byte) {n : Nat} (hn : n ≤ 15) :
    (composeSprite s.cfg cx cy.toNat (s.readBytes s.dataAddress n) s.fb).2 = true ↔
      ∃ r c, s.pixel r c = true ∧ SpriteCovers s cx cy n r c := by
  rw [composeSprite_collides _ _ _ _ _ (by rw [readBytes_length]; omega)]
  constructor
  · rintro ⟨k, hk, r, hr, hp⟩
    obtain ⟨c, h1, h2⟩ := (and_ne_zero_iff_pixel _ _).1 hp
    exact ⟨r, c, h1, (spriteCovers_iff ..).2 ⟨k, hk, hr, h2⟩⟩
  · rintro ⟨r, c, h1, h2⟩
    obtain ⟨k, hk, hr, hp⟩ := (spriteCovers_iff ..).1 h2
    exact ⟨k, hk, r, hr, (and_ne_zero_iff_pixel _ _).2 ⟨c, h1, hp⟩⟩

/-! ## Point-level access (R198, R199) -/

theorem gridPoint_inside (r : Fin 32) (c : Fin 64) : gridPoint r.val c.val = some (r, c) := by
  unfold gridPoint
  rw [dif_pos (by omega)]; simp

theorem gridPoint_outside {r c : Int} (h : r < 0 ∨ 31 < r ∨ c < 0 ∨ 63 < c) : gridPoint r c = none :=
  dif_neg (by omega)

/-- Setting a pixel of a row gives that pixel its value and keeps the others (R199). -/
theorem getLsbD_setPixelInRow (row : PixelRow) (c c' : Fin 64) (lit : Bool) :
    (setPixelInRow row c lit).getLsbD (63 - c'.val) = if c' = c then lit else row.getLsbD (63 - c'.val) := by
  unfold setPixelInRow
  by_cases e : c' = c
  · subst e; cases lit <;> simp; omega
  · have e' : c'.val ≠ c.val := fun h => e (Fin.ext h)
    cases lit
    · rw [if_neg (by simp), if_neg e, BitVec.getLsbD_and, BitVec.getLsbD_not, BitVec.getLsbD_shiftLeft, BitVec.getLsbD_one]
      by_cases h1 : 63 - c'.val < 63 - c.val
      · simp [h1]; omega
      · have : 63 - c'.val - (63 - c.val) ≠ 0 := by omega
        simp [this]; omega
    · rw [if_pos rfl, if_neg e, BitVec.getLsbD_or, BitVec.getLsbD_shiftLeft, BitVec.getLsbD_one]
      by_cases h1 : 63 - c'.val < 63 - c.val
      · simp [h1]
      · have : 63 - c'.val - (63 - c.val) ≠ 0 := by omega
        simp [this]

end Sys2Proof.Machine
end

