-- ==== Sys2Proof/Laws/Host.lean ====
section
/-! SUPPORT. What the host's operations answer on a running block, said once. -/

namespace Sys2Proof.Machine

variable {h : Session}

/-- On a running block an operation is the operation itself (R250). -/
theorem apply_running (hr : h.block.status = .running) (op : HostOp) : h.apply op = h.applyRunning op := by
  unfold Session.apply; rw [hr]

/-- After a fatal error an operation has no move (R250). -/
theorem apply_fatal {k : FatalKind} (hk : h.block.status = .fatal k) (op : HostOp) :
    h.apply op = .fault (.stopped k) := by
  unfold Session.apply; rw [hk]

/-- The operation `cycle` puts the cycle's next state in place and records that a cycle has run (R271, R272). -/
theorem session_cycle_of_next {r : Byte} {t : State} (hc : h.block.cycle r = .next t) :
    h.cycle r = .next ({ h with block := t, cycled := true }, .done) := by
  unfold Session.cycle; rw [hc]

/-- A load that has come too late has no move (R271). -/
theorem load_tooLate (bytes : List Byte) (hc : h.cycled = true ∨ h.loaded = true) :
    h.load bytes = .fault .loadTooLate := if_pos hc

/-- A load of more than 3584 bytes changes nothing (R271). -/
theorem load_tooLarge {bytes : List Byte} (hc : h.cycled = false) (hl : h.loaded = false)
    (hb : programMax < bytes.length) : h.load bytes = .next (h, .loadTooLarge) := by
  unfold Session.load
  rw [if_neg (by simp [hc, hl]), if_pos hb]; rfl

/-- A load that fits copies the image and is the last one (R271). -/
theorem load_fits {bytes : List Byte} (hc : h.cycled = false) (hl : h.loaded = false)
    (hb : bytes.length ≤ programMax) :
    h.load bytes = .next (⟨h.block.loadImage bytes, false, true⟩, .loadOk) := by
  unfold Session.load
  rw [if_neg (by simp [hc, hl]), if_neg (by omega), hc]

theorem point_inside (r : Fin 32) (c : Fin 64) (op : Fin 32 → Fin 64 → State × Reply) :
    h.point r.val c.val op = .next ({ h with block := (op r c).1 }, (op r c).2) := by
  unfold Session.point
  rw [gridPoint_inside]; rfl

/-- A point off the grid is a fatal error (R198, R199, R254). -/
theorem point_outside {r c : Int} (op : Fin 32 → Fin 64 → State × Reply) (ho : r < 0 ∨ 31 < r ∨ c < 0 ∨ 63 < c) :
    h.point r c op = .next ({ h with block := h.block.raiseFatal (.pixelOutOfBounds r c) }, .done) := by
  unfold Session.point
  rw [gridPoint_outside ho]; rfl

end Sys2Proof.Machine
end

