-- ==== Sys2Proof/Laws/PerInstr.lean ====
section
/-! SUPPORT. Statements about every instruction as syntax, one lemma per constructor. -/

namespace Sys2Proof.Laws.EncodesItsRow

/-- The instruction's word matches the mask and match of its own row of the opcode map (30_encoding.md R76). -/
def Statement (i : Instr) : Prop := i.row.matchesWord (encode i)

/-- A word of four nibbles masked nibble by nibble. -/
theorem and_nibbles (a b c d a' b' c' d' : Nibble) :
    (a ++ b ++ c ++ d : Word) &&& (a' ++ b' ++ c' ++ d') = (a &&& a') ++ (b &&& b') ++ (c &&& c') ++ (d &&& d') := by
  apply BitVec.eq_of_getLsbD_eq; intro k hk
  simp only [BitVec.getLsbD_and, BitVec.getLsbD_append]
  interval_cases k <;> rfl

/-- Masking with all four bits keeps a nibble. -/
theorem and_full (a : Nibble) : a &&& 15#4 = a := BitVec.and_allOnes

/-- The low nibbles masked off: the first nibble is left. -/
theorem and_F000 (a b c d : Nibble) : wordOfNibbles a b c d &&& 0xF000 = a ++ 0#4 ++ 0#4 ++ 0#4 := by
  have h := and_nibbles a b c d 0xF 0 0 0
  simpa [wordOfNibbles, and_full] using h

/-- The middle nibbles masked off: the first and the last are left. -/
theorem and_F00F (a b c d : Nibble) : wordOfNibbles a b c d &&& 0xF00F = a ++ 0#4 ++ 0#4 ++ d := by
  have h := and_nibbles a b c d 0xF 0 0 0xF
  simpa [wordOfNibbles, and_full] using h

/-- The register nibble masked off: the first nibble and the low byte are left. -/
theorem and_F0FF (a b c d : Nibble) : wordOfNibbles a b c d &&& 0xF0FF = a ++ 0#4 ++ c ++ d := by
  have h := and_nibbles a b c d 0xF 0 0xF 0xF
  simpa [wordOfNibbles, and_full] using h

theorem clearScreen : Statement .clearScreen := by unfold Statement; decide
theorem ret : Statement .ret := by unfold Statement; decide
theorem jump (nnn : Addr) : Statement (.jump nnn) := and_F000 _ _ _ _
theorem call (nnn : Addr) : Statement (.call nnn) := and_F000 _ _ _ _
theorem skipEqImm (x : Reg) (kk : Byte) : Statement (.skipEqImm x kk) := and_F000 _ _ _ _
theorem skipNeImm (x : Reg) (kk : Byte) : Statement (.skipNeImm x kk) := and_F000 _ _ _ _
theorem skipEqReg (x : Reg) (y : Reg) : Statement (.skipEqReg x y) := and_F00F _ _ _ _
theorem skipNeReg (x : Reg) (y : Reg) : Statement (.skipNeReg x y) := and_F00F _ _ _ _
theorem loadImm (x : Reg) (kk : Byte) : Statement (.loadImm x kk) := and_F000 _ _ _ _
theorem addImm (x : Reg) (kk : Byte) : Statement (.addImm x kk) := and_F000 _ _ _ _
theorem loadReg (x : Reg) (y : Reg) : Statement (.loadReg x y) := and_F00F _ _ _ _
theorem orReg (x : Reg) (y : Reg) : Statement (.orReg x y) := and_F00F _ _ _ _
theorem andReg (x : Reg) (y : Reg) : Statement (.andReg x y) := and_F00F _ _ _ _
theorem xorReg (x : Reg) (y : Reg) : Statement (.xorReg x y) := and_F00F _ _ _ _
theorem addReg (x : Reg) (y : Reg) : Statement (.addReg x y) := and_F00F _ _ _ _
theorem subReg (x : Reg) (y : Reg) : Statement (.subReg x y) := and_F00F _ _ _ _
theorem shrReg (x : Reg) (y : Reg) : Statement (.shrReg x y) := and_F00F _ _ _ _
theorem subnReg (x : Reg) (y : Reg) : Statement (.subnReg x y) := and_F00F _ _ _ _
theorem shlReg (x : Reg) (y : Reg) : Statement (.shlReg x y) := and_F00F _ _ _ _
theorem loadIndex (nnn : Addr) : Statement (.loadIndex nnn) := and_F000 _ _ _ _
theorem jumpV0 (nnn : Addr) : Statement (.jumpV0 nnn) := and_F000 _ _ _ _
theorem random (x : Reg) (kk : Byte) : Statement (.random x kk) := and_F000 _ _ _ _
theorem draw (x : Reg) (y : Reg) (n : Nat) : Statement (.draw x y n) := and_F000 _ _ _ _
theorem skipIfPressed (x : Reg) : Statement (.skipIfPressed x) := and_F0FF _ _ _ _
theorem skipIfNotPressed (x : Reg) : Statement (.skipIfNotPressed x) := and_F0FF _ _ _ _
theorem readDelay (x : Reg) : Statement (.readDelay x) := and_F0FF _ _ _ _
theorem waitKey (x : Reg) : Statement (.waitKey x) := and_F0FF _ _ _ _
theorem setDelay (x : Reg) : Statement (.setDelay x) := and_F0FF _ _ _ _
theorem setSound (x : Reg) : Statement (.setSound x) := and_F0FF _ _ _ _
theorem addIndex (x : Reg) : Statement (.addIndex x) := and_F0FF _ _ _ _
theorem loadFont (x : Reg) : Statement (.loadFont x) := and_F0FF _ _ _ _
theorem storeBcd (x : Reg) : Statement (.storeBcd x) := and_F0FF _ _ _ _
theorem storeRegs (x : Reg) : Statement (.storeRegs x) := and_F0FF _ _ _ _
theorem loadRegs (x : Reg) : Statement (.loadRegs x) := and_F0FF _ _ _ _

end Sys2Proof.Laws.EncodesItsRow
end

