-- ==== Sys2Proof/Tests/Slice0.lean ====
section
/-! SUPPORT. The package's own tests: the WellFormed check, decoding of words written out bit by bit from R76, one-step
tests whose expected values are the spec's vectors (95_test_vectors.md, each cited by its id), and for every obligation
with hypotheses a witness that meets them. -/

namespace Sys2Proof.Tests

open Sys2Proof.Machine

/-! ## Helpers -/

/-- The decided parameters with both wrap flags named, which R291's vectors do. -/
def configWith (wrapX wrapY : Bool) : Config := { Config.decided with wrapX := wrapX, wrapY := wrapY }

/-- The vectors' start state: reset with both wrap flags false. -/
def start : State := State.construct (configWith false false)

/-- Registers set one by one, the last binding first. -/
def withRegs (s : State) (rs : List (Reg × Byte)) : State := rs.foldl (fun s r => s.setReg r.1 r.2) s

/-- "word @ a" of the vectors: the word stored at `a`, and `PC` at `a`. -/
def at' (s : State) (a : Word) (w : Word) : State := { s.writeBytes a.toNat [highByte w, lowByte w] with pc := a }

/-- One part of the next state. -/
def after {α : Type} (f : State → α) : Result → Option α
  | .next t => some (f t)
  | .fault _ => none
  | .refused _ => none

/-- The start state with `I` at 0x300 and sprite bytes there, V0 the column and V1 the row. -/
def sprite (c : Config) (bs : List Byte) (col row : Byte) : State :=
  ((withRegs (State.construct c) [(0, col), (1, row)]).setIndex 0x300).writeBytes 0x300 bs

/-- A framebuffer with one row given, the others dark. -/
def rowLit (r : Fin 32) (w : PixelRow) : Vector PixelRow 32 := (Vector.replicate 32 0).set r.val w

/-! ## WellFormed: a smoke test -/

theorem test_wellFormed_refuses_height_sixteen : (Instr.draw 0 1 16).wellFormed = false := by decide
theorem test_wellFormed_admits_height_fifteen : (Instr.draw 0 1 15).wellFormed = true := by decide

/-! ## Decoding: every constructor's word, nibble by nibble from R76 -/

theorem test_decode_fixed :
    decode (0b0000#4 ++ 0b0000#4 ++ 0b1110#4 ++ 0b0000#4) = some .clearScreen ∧
    decode (0b0000#4 ++ 0b0000#4 ++ 0b1110#4 ++ 0b1110#4) = some .ret := by decide

theorem test_decode_addresses :
    decode (0b0001#4 ++ 0b0010#4 ++ 0b0011#4 ++ 0b0100#4) = some (.jump 0x234) ∧
    decode (0b0010#4 ++ 0b0000#4 ++ 0b0000#4 ++ 0b1000#4) = some (.call 0x008) ∧
    decode (0b1010#4 ++ 0b1111#4 ++ 0b1110#4 ++ 0b1101#4) = some (.loadIndex 0xFED) ∧
    decode (0b1011#4 ++ 0b0011#4 ++ 0b0000#4 ++ 0b0001#4) = some (.jumpV0 0x301) := by decide

theorem test_decode_register_and_byte :
    decode (0b0011#4 ++ 0b0011#4 ++ 0b1010#4 ++ 0b0101#4) = some (.skipEqImm 3 0xA5) ∧
    decode (0b0100#4 ++ 0b1111#4 ++ 0b0000#4 ++ 0b0001#4) = some (.skipNeImm 15 0x01) ∧
    decode (0b0110#4 ++ 0b1010#4 ++ 0b0000#4 ++ 0b1111#4) = some (.loadImm 10 0x0F) ∧
    decode (0b0111#4 ++ 0b0001#4 ++ 0b1111#4 ++ 0b1110#4) = some (.addImm 1 0xFE) ∧
    decode (0b1100#4 ++ 0b0101#4 ++ 0b0000#4 ++ 0b1111#4) = some (.random 5 0x0F) := by decide

theorem test_decode_two_registers :
    decode (0b0101#4 ++ 0b0001#4 ++ 0b0010#4 ++ 0b0000#4) = some (.skipEqReg 1 2) ∧
    decode (0b1001#4 ++ 0b0001#4 ++ 0b0010#4 ++ 0b0000#4) = some (.skipNeReg 1 2) ∧
    decode (0b1101#4 ++ 0b0001#4 ++ 0b0010#4 ++ 0b0101#4) = some (.draw 1 2 5) := by decide

theorem test_decode_alu :
    decode (0b1000#4 ++ 0b0001#4 ++ 0b0010#4 ++ 0b0000#4) = some (.loadReg 1 2) ∧
    decode (0b1000#4 ++ 0b0001#4 ++ 0b0010#4 ++ 0b0001#4) = some (.orReg 1 2) ∧
    decode (0b1000#4 ++ 0b0001#4 ++ 0b0010#4 ++ 0b0010#4) = some (.andReg 1 2) ∧
    decode (0b1000#4 ++ 0b0001#4 ++ 0b0010#4 ++ 0b0011#4) = some (.xorReg 1 2) ∧
    decode (0b1000#4 ++ 0b0001#4 ++ 0b0010#4 ++ 0b0100#4) = some (.addReg 1 2) ∧
    decode (0b1000#4 ++ 0b0001#4 ++ 0b0010#4 ++ 0b0101#4) = some (.subReg 1 2) ∧
    decode (0b1000#4 ++ 0b0001#4 ++ 0b0010#4 ++ 0b0110#4) = some (.shrReg 1 2) ∧
    decode (0b1000#4 ++ 0b0001#4 ++ 0b0010#4 ++ 0b0111#4) = some (.subnReg 1 2) ∧
    decode (0b1000#4 ++ 0b0001#4 ++ 0b0010#4 ++ 0b1110#4) = some (.shlReg 1 2) := by decide

theorem test_decode_one_register :
    decode (0b1110#4 ++ 0b0100#4 ++ 0b1001#4 ++ 0b1110#4) = some (.skipIfPressed 4) ∧
    decode (0b1110#4 ++ 0b0100#4 ++ 0b1010#4 ++ 0b0001#4) = some (.skipIfNotPressed 4) ∧
    decode (0b1111#4 ++ 0b0100#4 ++ 0b0000#4 ++ 0b0111#4) = some (.readDelay 4) ∧
    decode (0b1111#4 ++ 0b0100#4 ++ 0b0000#4 ++ 0b1010#4) = some (.waitKey 4) ∧
    decode (0b1111#4 ++ 0b0100#4 ++ 0b0001#4 ++ 0b0101#4) = some (.setDelay 4) ∧
    decode (0b1111#4 ++ 0b0100#4 ++ 0b0001#4 ++ 0b1000#4) = some (.setSound 4) ∧
    decode (0b1111#4 ++ 0b0100#4 ++ 0b0001#4 ++ 0b1110#4) = some (.addIndex 4) ∧
    decode (0b1111#4 ++ 0b0100#4 ++ 0b0010#4 ++ 0b1001#4) = some (.loadFont 4) ∧
    decode (0b1111#4 ++ 0b0100#4 ++ 0b0011#4 ++ 0b0011#4) = some (.storeBcd 4) ∧
    decode (0b1111#4 ++ 0b0100#4 ++ 0b0101#4 ++ 0b0101#4) = some (.storeRegs 4) ∧
    decode (0b1111#4 ++ 0b0100#4 ++ 0b0110#4 ++ 0b0101#4) = some (.loadRegs 4) := by decide

/-- V-DEC-2 to V-DEC-5: words that match no row. -/
theorem test_decode_invalid :
    decode 0x0000 = none ∧ decode 0x0123 = none ∧ decode 0x5121 = none ∧ decode 0x9121 = none ∧
    decode 0x8008 = none ∧ decode 0x800F = none ∧ decode 0xE000 = none ∧ decode 0xE19F = none ∧
    decode 0xF000 = none ∧ decode 0xF0FF = none := by decide

/-- From bytes: big-endian, two bytes an instruction (R55, R70); a lone byte is refused. -/
theorem test_decodeBytes :
    decodeBytes [0x12, 0x34, 0x56] = .ok (.jump 0x234, [0x56]) ∧
    (decodeBytes [0x12]).toOption = none ∧ decodeTableWord 16 0x00E0 = some .clearScreen := by
  refine ⟨rfl, rfl, rfl⟩

/-! ## The cycle (V-DEC, V-SRC-8) -/

/-- V-DEC-1. -/
theorem test_fetch_is_big_endian : after (·.pc) (step (start.writeBytes 0x200 [0x12, 0x34])) = some 0x434 := by decide

/-- V-DEC-2: at reset nothing is loaded, and the word 0000 is invalid. -/
theorem test_reset_word_is_invalid :
    step State.reset = .next { State.reset with status := .fatal (.invalidOpcode 0x0000) } := by rfl

/-- V-DEC-6: no alignment. -/
theorem test_fetch_at_odd_pc :
    after (fun t => (t.reg 1, t.pc)) (step (at' start 0x201 0x6105)) = some (0x05, 0x203) := by decide

/-- V-DEC-7 and V-DEC-8. -/
theorem test_fetch_past_memory :
    after (fun t => (t.status, t.pc)) (step { start with pc := 0xFFF }) =
      some (.fatal (.memoryOutOfBounds 0x1000), 0xFFF) ∧
    after (·.status) (step { start with pc := 0x1000 }) = some (.fatal (.memoryOutOfBounds 0x1000)) := by decide

/-- V-DEC-9: the skipped word is never fetched. -/
theorem test_skipped_word_is_not_fetched :
    after (fun t => (t.status, t.pc)) (step (start.writeBytes 0x200 [0x30, 0x00, 0xFF, 0xFF])) =
      some (.running, 0x204) := by decide

/-- V-DEC-10. -/
theorem test_no_cycle_after_a_fatal_error :
    step { start with status := .fatal .stackUnderflow } = .fault (.stopped .stackUnderflow) := rfl

/-- The host's way in: a table word placed at the fetch address is what the next step runs. -/
theorem test_withFetchWord_runs_the_word :
    after (fun t => (t.reg 10, t.pc)) (step (State.reset.withFetchWord 16 0x6A0F)) = some (0x0F, 0x202) := by decide

/-! ## Control transfer (V-CF) -/

/-- V-CF-1. -/
theorem test_jump : after (·.pc) (step (at' start 0x20A 0x1004)) = some 0x204 := by decide

/-- V-CF-4: a target past memory is held as it is. -/
theorem test_jump_past_memory : after (·.pc) (step (at' start 0x200 0x1FFF)) = some 0x11FF := by decide

/-- V-CF-5. -/
theorem test_call :
    after (fun t => (t.stack[0], t.sp, t.pc)) (step (at' start 0x204 0x2008)) = some (0x206, 1, 0x208) := by decide

/-- V-CF-9: the sixteenth push succeeds. -/
theorem test_call_fills_the_stack :
    after (fun t => (t.stack[15], t.sp, t.pc)) (step (at' { start with sp := 15 } 0x300 0x2100)) =
      some (0x302, 16, 0x300) := by decide

/-- V-CF-6: the slot keeps its value. -/
theorem test_return :
    after (fun t => (t.sp, t.pc, t.stack[0]))
      (step (at' { start with sp := 1, stack := (Vector.replicate 16 0).set 0 0x206 } 0x20C 0x00EE)) =
      some (0, 0x206, 0x206) := by decide

/-- V-CF-7 and V-CF-8: the stack's bounds are fatal, `PC` at the faulting instruction. -/
theorem test_stack_bounds :
    after (fun t => (t.status, t.sp, t.pc)) (step (at' start 0x200 0x00EE)) =
      some (.fatal .stackUnderflow, 0, 0x200) ∧
    after (fun t => (t.status, t.sp, t.pc)) (step (at' { start with sp := 16 } 0x300 0x2100)) =
      some (.fatal .stackOverflow, 16, 0x300) := by decide

/-- V-CF-10 and V-CF-11. -/
theorem test_skipEqImm :
    after (·.pc) (step (at' start 0x208 0x3300)) = some 0x20C ∧
    after (·.pc) (step (at' (start.setReg 3 1) 0x208 0x3300)) = some 0x20A := by decide

/-- V-CF-12 and V-CF-13. -/
theorem test_skipNeImm :
    after (·.pc) (step (at' (start.setReg 3 1) 0x208 0x4300)) = some 0x20C ∧
    after (·.pc) (step (at' start 0x208 0x4300)) = some 0x20A := by decide

/-- V-CF-14 (a skip on equality), and V1 = 7 against V2 = 8 does not skip (R106). -/
theorem test_skipEqReg :
    after (·.pc) (step (at' (withRegs start [(1, 7), (2, 7)]) 0x200 0x5120)) = some 0x204 ∧
    after (·.pc) (step (at' (withRegs start [(1, 7), (2, 8)]) 0x200 0x5120)) = some 0x202 := by decide

/-- V-CF-16 and V-CF-17. -/
theorem test_skipNeReg :
    after (·.pc) (step (at' (withRegs start [(1, 7), (2, 8)]) 0x200 0x9120)) = some 0x204 ∧
    after (·.pc) (step (at' (withRegs start [(1, 7)]) 0x200 0x9110)) = some 0x202 := by decide

/-- V-CF-19 and V-CF-21: no base offset, no wrap. -/
theorem test_jumpV0 :
    after (·.pc) (step (at' (start.setReg 0 0x04) 0x200 0xB300)) = some 0x304 ∧
    after (·.pc) (step (at' (start.setReg 0 0xFF) 0x200 0xBFFF)) = some 0x10FE := by decide

/-! ## Loads, arithmetic, logic, shifts, random (V-ALU) -/

/-- V-ALU-1 and V-ALU-5. -/
theorem test_register_loads :
    after (·.reg 10) (step (at' start 0x200 0x6A0F)) = some 0x0F ∧
    after (fun t => (t.reg 1, t.reg 2)) (step (at' (start.setReg 2 0x33) 0x200 0x8120)) = some (0x33, 0x33) := by decide

/-- V-ALU-2 and V-ALU-3. -/
theorem test_addImm :
    after (fun t => (t.reg 0, t.reg VF)) (step (at' (withRegs start [(0, 0x05), (VF, 0x55)]) 0x200 0x70FF)) =
      some (0x04, 0x55) ∧
    after (·.reg VF) (step (at' (start.setReg VF 0x10) 0x200 0x7F05)) = some 0x15 := by decide

/-- V-ALU-6: VF is kept. -/
theorem test_logic :
    let s := withRegs start [(1, 0x0F), (2, 0xF0), (VF, 0x77)]
    after (fun t => (t.reg 1, t.reg VF)) (step (at' s 0x200 0x8121)) = some (0xFF, 0x77) ∧
    after (fun t => (t.reg 1, t.reg VF)) (step (at' s 0x200 0x8122)) = some (0x00, 0x77) ∧
    after (fun t => (t.reg 1, t.reg VF)) (step (at' s 0x200 0x8123)) = some (0xFF, 0x77) := by decide

/-- V-ALU-14 and V-ALU-19 (the addend is VF's old value). -/
theorem test_addReg :
    after (fun t => (t.reg 0, t.reg VF)) (step (at' (withRegs start [(0, 0xC8), (1, 0x64)]) 0x200 0x8014)) =
      some (0x2C, 1) ∧
    after (fun t => (t.reg 1, t.reg VF)) (step (at' (withRegs start [(VF, 0x05), (1, 0x03)]) 0x200 0x81F4)) =
      some (0x08, 0) := by decide

/-- V-ALU-18: with x = F the result is written last. -/
theorem test_addReg_into_flag :
    after (·.reg VF) (step (at' (withRegs start [(VF, 0xFF), (1, 0x01)]) 0x200 0x8F14)) = some 0x00 := by decide

/-- V-ALU-8 and V-ALU-10. -/
theorem test_subReg :
    after (fun t => (t.reg 1, t.reg VF)) (step (at' (withRegs start [(1, 0x42), (2, 0x42)]) 0x200 0x8125)) =
      some (0x00, 0) ∧
    after (fun t => (t.reg 2, t.reg VF)) (step (at' (withRegs start [(1, 0x64)]) 0x200 0x8215)) = some (0x9C, 0) := by
  decide

/-- V-ALU-20: with x = F the difference wins. -/
theorem test_subReg_into_flag :
    after (·.reg VF) (step (at' (withRegs start [(VF, 0x30), (1, 0x10)]) 0x200 0x8F15)) = some 0x20 := by decide

/-- V-ALU-11 and V-ALU-12. -/
theorem test_subnReg :
    after (fun t => (t.reg 1, t.reg VF)) (step (at' (withRegs start [(1, 0x10), (2, 0x30)]) 0x200 0x8127)) =
      some (0x20, 1) ∧
    after (fun t => (t.reg 1, t.reg VF)) (step (at' (withRegs start [(1, 0x42), (2, 0x42)]) 0x200 0x8127)) =
      some (0x00, 0) := by decide

/-- V-ALU-23 (the source is Vy) and V-ALU-24. -/
theorem test_shrReg :
    after (fun t => (t.reg 3, t.reg VF, t.reg 1)) (step (at' (withRegs start [(1, 0x65), (3, 0xAA)]) 0x200 0x8316)) =
      some (0x32, 1, 0x65) ∧
    after (·.reg VF) (step (at' (start.setReg 1 0x05) 0x200 0x8F16)) = some 0x02 := by decide

/-- V-ALU-26 and V-ALU-28. -/
theorem test_shlReg :
    after (fun t => (t.reg 4, t.reg VF)) (step (at' (start.setReg 1 0x64) 0x200 0x841E)) = some (0xC8, 0) ∧
    after (·.reg VF) (step (at' (start.setReg 1 0xFF) 0x200 0x8F1E)) = some 0xFE := by decide

/-- V-ALU-29 to V-ALU-31, on the byte drawn. -/
theorem test_random :
    after (·.reg 5) ((at' start 0x200 0xC50F).cycle 0xA7) = some 0x07 ∧
    after (·.reg 5) ((at' start 0x200 0xC500).cycle 0xA7) = some 0x00 ∧
    after (·.reg 5) ((at' start 0x200 0xC5FF).cycle 0x3C) = some 0x3C := by decide

/-- Through `step` the byte is a free one, and the next is another (R142). -/
theorem test_random_through_step :
    after (fun t => (t.reg 5, t.draws)) (step (at' start 0x200 0xC50F)) = some (Config.drawByte 0 &&& 0x0F, 1) := rfl

/-! ## Index register and memory (V-MEM) -/

/-- V-MEM-1. -/
theorem test_loadIndex : after (·.i) (step (at' start 0x200 0xA300)) = some 0x300 := by decide

/-- V-MEM-3 and V-MEM-4. -/
theorem test_addIndex :
    after (·.i) (step (at' ((start.setReg 2 0x10).setIndex 0x300) 0x200 0xF21E)) = some 0x310 ∧
    after (fun t => (t.i, t.reg VF)) (step (at' ((start.setReg 0 0x01).setIndex 0xFFF) 0x200 0xF01E)) =
      some (0x000, 0x00) := by decide

/-- V-MEM-7 and V-MEM-9. -/
theorem test_loadFont :
    after (·.i) (step (at' (start.setReg 0 0x0F) 0x200 0xF029)) = some 0x04B ∧
    after (fun t => (t.status, t.i)) (step (at' ((start.setReg 0 0x10).setIndex 0x300) 0x200 0xF029)) =
      some (.fatal (.invalidCharacter 0x10), 0x300) := by decide

/-- V-MEM-14. -/
theorem test_storeBcd :
    after (fun t => (t.readBytes 0xFFD 3, t.i)) (step (at' ((start.setReg 0 0x80).setIndex 0xFFD) 0x200 0xF033)) =
      some ([1, 2, 8], 0xFFD) := by decide

/-- V-MEM-15: nothing is written. -/
theorem test_storeBcd_past_memory :
    after (fun t => (t.status, t.mem)) (exec (.storeBcd 0) ((start.setReg 0 0x80).setIndex 0xFFE)) =
      some (.fatal (.memoryOutOfBounds 0x1000), []) := by decide

/-- V-MEM-16. -/
theorem test_storeRegs :
    after (fun t => (t.readBytes 0x400 4, t.i))
      (step (at' ((withRegs start [(0, 1), (1, 2), (2, 3), (3, 4)]).setIndex 0x400) 0x200 0xF255)) =
      some ([1, 2, 3, 0], 0x400) := by decide

/-- V-MEM-19: no byte is written. -/
theorem test_storeRegs_past_memory :
    after (fun t => (t.status, t.mem)) (exec (.storeRegs 15) ((withRegs start [(0, 1)]).setIndex 0xFF1)) =
      some (.fatal (.memoryOutOfBounds 0x1000), []) := by decide

/-- V-MEM-20 and V-MEM-22 (the glyph "0"). -/
theorem test_loadRegs :
    after (fun t => (t.reg 0, t.reg 1, t.reg 2, t.reg 3))
      (step (at' (((start.setReg 3 0x77).setIndex 0x300).writeBytes 0x300 [2, 5, 4]) 0x200 0xF265)) =
      some (2, 5, 4, 0x77) ∧
    after (fun t => (t.reg 0, t.reg 1, t.reg 3, t.reg 4)) (step (at' start 0x200 0xF465)) =
      some (0xF0, 0x90, 0x90, 0xF0) := by decide

/-! ## Display (V-DSP, V-SRC) -/

/-- V-SRC-8: all three lit pixels go dark. -/
theorem test_clearScreen :
    let s := ((start.withPixel 0 0 true).withPixel 16 32 true).withPixel 31 63 true
    (s.fb[0], s.fb[16], s.fb[31]) = (0x8000000000000000, 0x0000000080000000, 0x0000000000000001) ∧
    after (fun t => (t.fb, t.pc)) (step (at' s 0x200 0x00E0)) = some (Vector.replicate 32 0, 0x202) := by decide

/-- V-SRC-5: wrapped, and clipped. -/
theorem test_draw_across_the_edge :
    after (fun t => (t.fb[0], t.reg VF)) (exec (.draw 0 1 1) (sprite (configWith true true) [0xFF] 60 0)) =
      some (0xF00000000000000F, 0) ∧
    after (fun t => (t.fb[0], t.reg VF)) (exec (.draw 0 1 1) (sprite (configWith false false) [0xFF] 60 0)) =
      some (0x000000000000000F, 0) := by decide

/-- V-DSP-14, and V-SRC-4's second draw. -/
theorem test_draw_collides :
    after (fun t => (t.fb[0], t.reg VF))
      (exec (.draw 0 1 1) ((sprite (configWith true true) [0xFF] 0 0).setFb (rowLit 0 0x0100000000000000))) =
      some (0xFE00000000000000, 1) ∧
    after (fun t => (t.fb[0], t.reg VF))
      (exec (.draw 0 1 1) ((sprite (configWith false false) [0xF0] 0 0).setFb (rowLit 0 0xF000000000000000))) =
      some (0, 1) := by decide

/-- V-DSP-2 to V-DSP-5 and V-DSP-7, V-DSP-8: placement at the boundary columns. -/
theorem test_place :
    place (configWith false false) 0xFF 56 = 0x00000000000000FF ∧
    place (configWith false false) 0xFF 57 = 0x000000000000007F ∧
    place (configWith true false) 0xFF 57 = 0x800000000000007F ∧
    place (configWith true false) 0xFF 64 = 0xFF00000000000000 ∧
    place (configWith false false) 0xFF 120 = 0 ∧
    place (configWith true false) 0xFF 200 = 0x00FF000000000000 := by decide

/-- V-DSP-9 to V-DSP-12: target rows. -/
theorem test_targetRow :
    targetRow (configWith false true) 32 = some 0 ∧ targetRow (configWith false false) 32 = none ∧
    targetRow (configWith false true) 41 = some 9 ∧ targetRow (configWith false false) 31 = some 31 := by decide

/-- V-DSP-20 to V-DSP-22. -/
theorem test_point_access :
    gridPoint 32 0 = none ∧ gridPoint 0 64 = none ∧ gridPoint (-1) 0 = none ∧
    (start.withPixel 16 32 true).fb[16] = 0x0000000080000000 := by decide

/-! ## Keys, timers, the host's operations (V-KEY) -/

/-- V-KEY-1 and V-KEY-5 (0x25 is not reduced to 5). -/
theorem test_skipIfPressed :
    after (·.pc) (step (at' ((start.setKeys 0x0020).setReg 1 0x05) 0x210 0xE19E)) = some 0x214 ∧
    after (·.pc) (step (at' ((start.setKeys 0x0020).setReg 1 0x25) 0x210 0xE19E)) = some 0x212 := by decide

/-- V-KEY-4 and V-KEY-6. -/
theorem test_skipIfNotPressed :
    after (·.pc) (step (at' ((start.setKeys 0x0020).setReg 1 0x05) 0x210 0xE1A1)) = some 0x212 ∧
    after (·.pc) (step (at' ((start.setKeys 0x0020).setReg 1 0x25) 0x210 0xE1A1)) = some 0x214 := by decide

/-- V-KEY-7 and V-KEY-8. -/
theorem test_waitKey :
    after (fun t => (t.pc, t.reg 1)) (step (at' start 0x204 0xF10A)) = some (0x204, 0) ∧
    after (fun t => (t.pc, t.reg 3)) (step (at' (start.setKeys 0x8000) 0x204 0xF30A)) = some (0x206, 0x0F) := by decide

/-- V-KEY-10 to V-KEY-12. -/
theorem test_timer_loads :
    after (·.reg 2) (step (at' (start.setDT 0x73) 0x200 0xF207)) = some 0x73 ∧
    after (·.dt) (step (at' (start.setReg 0 0x78) 0x200 0xF015)) = some 0x78 ∧
    after (·.st) (step (at' (start.setReg 3 0x10) 0x200 0xF318)) = some 0x10 := by decide

/-- V-KEY-13: a zero timer stays. -/
theorem test_tick : ((start.setDT 1).tick.dt, (start.setDT 1).tick.st) = (0, 0) := by decide

/-- V-KEY-15 and V-KEY-16. -/
theorem test_key_operations :
    ((start.setKeys 0x0020).setPressed 3).keys = 0x0008 ∧ ((start.setKeys 0x0008).release 5).keys = 0x0008 ∧
    ((start.setKeys 0x0008).release 3).keys = 0x0000 := by decide

/-- V-KEY-17: the second read combines, and keeps the raw bitmap. -/
theorem test_frame_read :
    let s := { State.construct { configWith false false with persist := true } with
      fb := rowLit 0 0x0500000000000000, prev := rowLit 0 0xA000000000000000 }
    s.frame[0] = 0xA500000000000000 ∧ s.afterFrameRead.prev[0] = 0x0500000000000000 := by decide +kernel

/-- R251's codes. -/
theorem test_fatal_codes :
    [FatalKind.invalidOpcode 0, .invalidCharacter 16, .pixelOutOfBounds 32 0, .stackOverflow, .stackUnderflow,
      .memoryOutOfBounds 0x1000].map FatalKind.code = [1, 2, 3, 4, 5, 6] := by decide

/-- R272 and R271: the operation `cycle` runs one instruction on the host's byte, and a load after it has no move. -/
theorem test_host_cycle :
    ∃ t : State, (⟨at' start 0x200 0xC50F, false, false⟩ : Session).apply (.cycle 0xA7) = .next (⟨t, true, false⟩, .done) ∧
      (t.reg 5, t.pc) = (0x07, 0x202) ∧ (⟨t, true, false⟩ : Session).apply (.load []) = .fault .loadTooLate :=
  ⟨_, rfl, by decide, rfl⟩

/-! ## Witnesses: every hypothesis of every obligation can be met -/

/-- The host's session around a state, nothing run or loaded. -/
def session (s : State) : Session := ⟨s, false, false⟩

/-- A state with `PC` at the last address a fetch may start at, and a word there. -/
def last (w : Word) : State := at' start 0xFFE w

theorem witness_DecodeOfEncode : (Instr.draw 15 15 15).wellFormed = true := by decide

theorem witness_EncodeOfDecode : decode 0xDFFF = some (.draw 15 15 15) := by decide

theorem witness_StepRunsTheDecodedInstruction :
    (last 0x00E0).status = .running ∧ (last 0x00E0).pc.toNat + 1 ≤ 0xFFF ∧
    decode ((last 0x00E0).readByte (last 0x00E0).pc.toNat ++ (last 0x00E0).readByte ((last 0x00E0).pc.toNat + 1)) =
      some .clearScreen := by decide

theorem witness_StepOnInvalidWordRaises :
    (last 0x0123).status = .running ∧ (last 0x0123).pc.toNat + 1 ≤ 0xFFF ∧
    decode ((last 0x0123).readByte (last 0x0123).pc.toNat ++ (last 0x0123).readByte ((last 0x0123).pc.toNat + 1)) =
      none := by decide

theorem witness_StepOnFetchPastMemoryRaises :
    ({ start with pc := 0x1000 } : State).status = .running ∧ 0xFFF < ({ start with pc := 0x1000 } : State).pc.toNat ∧
    ({ start with pc := 0xFFF } : State).status = .running ∧ ({ start with pc := 0xFFF } : State).pc.toNat = 0xFFF := by
  decide

theorem witness_FatalStatusIsForGood :
    ({ start with status := .fatal .stackOverflow } : State).status = .fatal .stackOverflow ∧
    (session { start with status := .fatal .stackOverflow }).block.status = .fatal .stackOverflow := by decide

theorem witness_FatalErrorsArePrecise :
    start.status = .running ∧ ∃ t, step start = .next t ∧ t.status = .fatal (.invalidOpcode 0x0000) :=
  ⟨rfl, _, rfl, by decide⟩

theorem witness_RunningMachineAlwaysSteps : start.status = .running := rfl

/-- One instance for each clause of `EachFatalKindHasItsInstructions`, at the boundary where it begins to raise. -/
theorem witness_EachFatalKindHasItsInstructions :
    (∃ t, exec (.call 0) { start with sp := 16 } = .next t ∧ t.status = .fatal .stackOverflow) ∧
    (∃ t, exec .ret start = .next t ∧ t.status = .fatal .stackUnderflow) ∧
    (∃ t, exec (.loadFont 0) (start.setReg 0 16) = .next t ∧ t.status = .fatal (.invalidCharacter 16)) ∧
    (∃ t, exec (.draw 0 1 2) (start.setIndex 0xFFF) = .next t ∧ t.status = .fatal (.memoryOutOfBounds 0x1000)) ∧
    (∃ t, exec (.storeBcd 0) (start.setIndex 0xFFE) = .next t ∧ t.status = .fatal (.memoryOutOfBounds 0x1000)) ∧
    (∃ t, exec (.storeRegs 1) (start.setIndex 0xFFF) = .next t ∧ t.status = .fatal (.memoryOutOfBounds 0x1000)) ∧
    (∃ t, exec (.loadRegs 1) (start.setIndex 0xFFF) = .next t ∧ t.status = .fatal (.memoryOutOfBounds 0x1000)) :=
  ⟨⟨_, rfl, by decide⟩, ⟨_, rfl, by decide⟩, ⟨_, rfl, by decide⟩, ⟨_, rfl, by decide⟩, ⟨_, rfl, by decide⟩,
    ⟨_, rfl, by decide⟩, ⟨_, rfl, by decide⟩⟩

theorem witness_ConstructionMeetsTheInvariant :
    Config.decided.ok ∧ ({ Config.decided with fontBase := 0x1B0 } : Config).ok := by decide

theorem witness_ConstructionLeavesResetValues :
    (0 < Config.decided.fontBase.toNat ∨ Config.decided.fontBase.toNat + 80 ≤ 80) ∧
    ((0x1AF < ({ Config.decided with fontBase := 0x1B0 } : Config).fontBase.toNat)) := by decide

/-- A state that meets the invariant with every part of it in use: a listed byte, a return address, a pressed key. -/
theorem inv_of_a_used_state :
    ({ at' (start.setKeys 0x0020) 0x300 0x2000 with stack := (Vector.replicate 16 0).set 0 0x1000, sp := 1 } : State).Inv :=
  ⟨by decide, by decide, by decide, by decide, by decide⟩

theorem witness_StepKeepsTheInvariant :
    let s : State := { at' (start.setKeys 0x0020) 0x300 0x2000 with stack := (Vector.replicate 16 0).set 0 0x1000, sp := 1 }
    s.Inv ∧ ∃ t, step s = .next t ∧ t.stack[1] = 0x302 :=
  ⟨inv_of_a_used_state, _, rfl, by decide⟩

theorem witness_HostRunsKeepTheInvariant :
    (session start).block.Inv ∧
    ∃ h', (session start).run [.load [0x12, 0x00], .cycle 0xA7, .tick, .setPressed 15, .getPixel 31 63] = .next h' ∧
      h'.block.keys = 0x8000 :=
  ⟨⟨by decide, by decide, by decide, by decide, by decide⟩, _, rfl, by decide⟩

theorem witness_WritersOfIndexAndTimers :
    (∃ t, exec (.loadIndex 1) start = .next t ∧ t.i ≠ start.i) ∧
    (∃ t, exec (.setDelay 0) (start.setReg 0 1) = .next t ∧ t.dt ≠ (start.setReg 0 1).dt) ∧
    (∃ t, exec (.setSound 0) (start.setReg 0 1) = .next t ∧ t.st ≠ (start.setReg 0 1).st) ∧
    (∃ t, exec (.random 0 0) start = .next t ∧ t.draws ≠ start.draws) :=
  ⟨⟨_, rfl, by decide⟩, ⟨_, rfl, by decide⟩, ⟨_, rfl, by decide⟩, ⟨_, rfl, by decide⟩⟩

theorem witness_WritersOfMemoryScreenAndStack :
    (∃ t, exec (.storeRegs 0) (start.setReg 0 1) = .next t ∧ t.readByte 0 ≠ (start.setReg 0 1).readByte 0) ∧
    (∃ t, exec (.draw 0 0 1) start = .next t ∧ t.fb[(0 : Fin 32).val] ≠ start.fb[(0 : Fin 32).val]) ∧
    (∃ t, exec (.call 0) start = .next t ∧ t.stack[(0 : Fin 16).val] ≠ start.stack[(0 : Fin 16).val] ∧ t.sp ≠ start.sp) :=
  ⟨⟨_, rfl, by decide⟩, ⟨_, rfl, by decide⟩, ⟨_, rfl, by decide, by decide⟩⟩

theorem witness_CyclesKeepHostOwnedState : ∃ t, step (last 0x00E0) = .next t ∧ t.status = .running :=
  ⟨_, rfl, by decide⟩

theorem witness_WritersOfTheFlagRegister :
    start.status = .running ∧
    (∃ t, exec (.loadImm VF 1) start = .next t ∧ t.reg VF ≠ start.reg VF) ∧
    (∃ t, (0 : Reg) ≠ VF ∧ exec (.addReg 0 1) (withRegs start [(0, 0xFF), (1, 1)]) = .next t ∧ t.reg VF = 1) ∧
    (∃ t, exec (.draw 0 1 1) start = .next t ∧ t.status = .running) :=
  ⟨rfl, ⟨_, rfl, by decide⟩, ⟨_, by decide, rfl, by decide⟩, ⟨_, rfl, by decide⟩⟩

theorem witness_ReturnPopsThePC : ({ start with sp := 16 } : State).sp.val = (15 : Fin 16).val + 1 := by decide

theorem witness_CallPushesTheReturnAddress : ({ start with sp := 15 } : State).sp.val = (15 : Fin 16).val := by decide

theorem witness_StackBoundsAreFatal : ({ start with sp := 16 } : State).sp.val = 16 ∧ start.sp.val = 0 := by decide

theorem witness_CallThenReturnComesBack : ({ start with sp := 15 } : State).sp.val = (15 : Fin 16).val := by decide

theorem witness_SkipsComparingRegisters : (0x1 : Nibble) ≠ 0 := by decide

theorem witness_AddSetsCarry : (14 : Reg) ≠ VF := by decide

theorem witness_SubtractionsSetNoBorrow : (14 : Reg) ≠ VF := by decide

theorem witness_ShiftsTakeTheirSourceFromVy : (14 : Reg) ≠ VF := by decide

theorem witness_RandomMasksAFreeByte : (0 : Byte) = 0 := rfl

theorem witness_LoadFontPointsAtTheGlyph :
    (start.setReg 0 15).cfg.ok ∧ ((start.setReg 0 15).reg 0).toNat ≤ 15 ∧ 15 < ((start.setReg 0 16).reg 0).toNat := by
  decide

theorem witness_StoreBcdWritesThreeDigits : (start.setIndex 0xFFD).dataAddress + 2 ≤ 0xFFF := by decide

theorem witness_StoreRegsWritesThroughVx :
    (start.setIndex 0xFF0).dataAddress + (15 : Reg).val ≤ 0xFFF ∧ (15 : Reg) ≤ 15 := by decide

theorem witness_LoadRegsReadsThroughVx :
    (start.setIndex 0xFF0).dataAddress + (15 : Reg).val ≤ 0xFFF ∧ (15 : Reg) ≤ 15 := by decide

/-- V0 = 0xAB, all registers to be stored in the last sixteen bytes of memory. -/
def aboutToStore : State := (start.setReg 0 0xAB).setIndex 0xFF0

/-- The state after that store. -/
def stored : State := (aboutToStore.writeBytes 0xFF0 (aboutToStore.regsUpTo 15)).applyEffect .advance

/-- The registers V0 and V14 are changed between the store and the load. -/
theorem witness_StoreThenLoadRestoresRegisters :
    aboutToStore.dataAddress + (15 : Reg).val ≤ 0xFFF ∧ exec (.storeRegs 15) aboutToStore = .next stored ∧
    stored.readByte 0xFF0 = 0xAB ∧ (withRegs stored [(0, 1), (14, 1)]).i = stored.i ∧
    (∀ a, (withRegs stored [(0, 1), (14, 1)]).readByte a = stored.readByte a) ∧
    (withRegs stored [(0, 1), (14, 1)]).reg 0 ≠ stored.reg 0 ∧
    (withRegs stored [(0, 1), (14, 1)]).reg 14 ≠ stored.reg 14 :=
  ⟨by decide, rfl, by decide, rfl, fun _ => rfl, by decide, by decide⟩

theorem witness_AccessPastMemoryIsFatal :
    0xFFF < (start.setIndex 0xFFE).dataAddress + 2 ∧ 0xFFF < (start.setIndex 0xFFF).dataAddress + (1 : Reg).val ∧
    0 < 2 ∧ 0xFFF < (start.setIndex 0xFFF).dataAddress + 2 - 1 := by decide

/-- The largest sprite at the last address it fits, and a lit pixel it covers or misses, for the two clauses of VF. -/
theorem witness_DrawFlipsTheCoveredPixels :
    (15 ≤ 15 ∧ (start.setIndex 0xFF1).dataAddress + 15 ≤ 0x1000) ∧
    (∃ r c, ((sprite (configWith false false) [0xF0] 0 0).setFb (rowLit 0 0x8000000000000000)).pixel r c = true ∧
      SpriteCovers ((sprite (configWith false false) [0xF0] 0 0).setFb (rowLit 0 0x8000000000000000)) 0 0 1 r c) ∧
    (∀ r c, start.pixel r c = true → ¬ SpriteCovers start 0 0 1 r c) := by
  refine ⟨by decide, ⟨0, 0, by decide, 0, 0, by decide, by decide, by decide, .inl rfl, .inl rfl⟩, ?_⟩
  intro r c h
  have dark : start.pixel r c = false := by
    show ((Vector.replicate 32 (0 : PixelRow))[r.val]).getLsbD _ = false
    rw [Vector.getElem_replicate]; exact BitVec.getLsbD_zero
  rw [dark] at h; cases h

theorem witness_PlacementFollowsTheShiftAmount :
    (56 : Byte).toNat ≤ 56 ∧ 56 < (57 : Byte).toNat ∧ (configWith true false).wrapX = true ∧
    (configWith false true).wrapX = false ∧ 63 < 64 ∧ 31 ≤ 31 ∧ 31 < 32 ∧ (configWith false true).wrapY = true ∧
    (configWith true false).wrapY = false := by decide

theorem witness_DrawingTwiceRestoresTheScreen :
    let s := sprite (configWith false false) [0xF0] 62 0
    s.status = .running ∧ s.dataAddress + 1 ≤ 0x1000 ∧
    ∃ t u, exec (.draw 0 1 1) s = .next t ∧ t.reg 0 = s.reg 0 ∧ t.reg 1 = s.reg 1 ∧ exec (.draw 0 1 1) t = .next u :=
  ⟨by decide, by decide, _, _, rfl, by decide, by decide, rfl⟩

theorem witness_PointAccessReadsAndWritesOnePixel :
    (session start).block.status = .running ∧ ((31 : Fin 32), (63 : Fin 64)) ≠ (31, 62) ∧
    ((-1 : Int) < 0 ∨ (31 : Int) < -1 ∨ (0 : Int) < 0 ∨ (63 : Int) < 0) ∧ (31 : Int) < 32 ∧ (63 : Int) < 64 := by decide

theorem witness_KeyWaitSpinsUntilAKeyIsPressed :
    start.keys = 0 ∧ (start.setKeys 0x8000).keys.getLsbD (15 : Fin 16).val = true ∧
    ∀ j : Fin 16, j < 15 → (start.setKeys 0x8000).keys.getLsbD j.val = false := by decide

theorem witness_TickCountsTimersDown : (session start).block.status = .running := rfl

theorem witness_KeyOperationsWriteTheMask :
    (session start).block.status = .running ∧ 15 < 16 ∧ 16 ≤ 16 := by decide

theorem witness_FrameReadKeepsTheRawBitmap :
    (session start).block.status = .running ∧ (session start).block.cfg.persist = false ∧
    (session (State.construct { configWith false false with persist := true })).block.status = .running ∧
    (session (State.construct { configWith false false with persist := true })).block.cfg.persist = true := by decide

theorem witness_LoadCopiesTheImageOnce :
    (session start).block.status = .running ∧ (session start).cycled = false ∧ (session start).loaded = false ∧
    3584 < (List.replicate 3585 (0 : Byte)).length ∧ (List.replicate 3584 (0 : Byte)).length ≤ 3584 ∧
    (⟨start, true, false⟩ : Session).cycled = true ∧ (⟨start, false, true⟩ : Session).loaded = true := by
  refine ⟨rfl, rfl, rfl, ?_, ?_, rfl, rfl⟩
  · rw [List.length_replicate]; decide
  · rw [List.length_replicate]

theorem witness_LaunchedProgramStartsAtItsFirstWord :
    Launched (configWith false false) [0x12, 0x00] ⟨start.writeBytes 0x200 [0x12, 0x00], false, true⟩ ∧
    decode ((0x12 : Byte) ++ (0x00 : Byte)) = some (.jump 0x200) := ⟨rfl, by decide⟩

theorem witness_CycleTakesTheRandomByteAsAnInput :
    ({ start with draws := 7 } : State).toBlock = start.toBlock ∧ ({ start with draws := 7 } : State) ≠ start ∧
    decode (last 0x00E0).fetchWord = some .clearScreen ∧ (last 0xC5FF).status = .running ∧
    (last 0xC5FF).pc.toNat + 1 ≤ 0xFFF ∧ decode (last 0xC5FF).fetchWord = some (.random 5 0xFF) ∧
    (session (last 0xC5FF)).block.status = .running := by decide

theorem witness_EveryInstructionIsTwoBytes :
    (Instr.draw 15 15 15).wellFormed = true ∧ decodeBytes [0x12, 0x34] = .ok (.jump 0x234, []) ∧
    decodeBytes [0x12, 0x34, 0x56] = .ok (.jump 0x234, [0x56]) := ⟨by decide, rfl, rfl⟩

/-- V-CF-2 and V-KEY-7: the halt idiom at 0x200, and a key wait with no key pressed. -/
theorem witness_JumpToItselfAndIdleKeyWaitHalt :
    (at' start 0x200 0x1000).status = .running ∧ (at' start 0x200 0x1000).pc.toNat + 1 ≤ 0xFFF ∧
    (at' start 0x200 0x1000).fetchWord = 0x1#4 ++ (0x000 : Addr) ∧
    (at' start 0x200 0x1000).pc.toNat = 0x200 + (0x000 : Addr).toNat ∧
    (at' start 0x204 0xF10A).fetchWord = 0xF#4 ++ BitVec.ofNat 4 (1 : Reg).val ++ 0x0A#8 ∧
    (at' start 0x204 0xF10A).keys = 0 := by decide

end Sys2Proof.Tests
end

section
/-! Everything an instruction can answer, as two relations: the fatal error it raises, or the writes it has made and the
program-counter effect that follows them. A proof about every instruction cites `exec_cases` and splits these, not the
meanings. -/

namespace Sys2Proof.Machine

/-! ## The instructions that differ only in a value or a condition -/

/-- The instructions whose one write is the register `x`, and which do not take a random byte (41_alu.md, R223, R224). -/
inductive SetsReg (x : Reg) : Instr → Prop
  | loadImm (kk : Byte) : SetsReg x (.loadImm x kk)
  | addImm (kk : Byte) : SetsReg x (.addImm x kk)
  | loadReg (y : Reg) : SetsReg x (.loadReg x y)
  | orReg (y : Reg) : SetsReg x (.orReg x y)
  | andReg (y : Reg) : SetsReg x (.andReg x y)
  | xorReg (y : Reg) : SetsReg x (.xorReg x y)
  | readDelay : SetsReg x (.readDelay x)
  | waitKey : SetsReg x (.waitKey x)

/-- The arithmetic instructions that write the flag and then the register `x` (R130, R137 to R141). -/
inductive SetsFlagAndReg (x : Reg) : Instr → Prop
  | addReg (y : Reg) : SetsFlagAndReg x (.addReg x y)
  | subReg (y : Reg) : SetsFlagAndReg x (.subReg x y)
  | shrReg (y : Reg) : SetsFlagAndReg x (.shrReg x y)
  | subnReg (y : Reg) : SetsFlagAndReg x (.subnReg x y)
  | shlReg (y : Reg) : SetsFlagAndReg x (.shlReg x y)

/-- The conditional skips (R104 to R107, R221, R222). -/
inductive Skips : Instr → Prop
  | skipEqImm (x : Reg) (kk : Byte) : Skips (.skipEqImm x kk)
  | skipNeImm (x : Reg) (kk : Byte) : Skips (.skipNeImm x kk)
  | skipEqReg (x y : Reg) : Skips (.skipEqReg x y)
  | skipNeReg (x y : Reg) : Skips (.skipNeReg x y)
  | skipIfPressed (x : Reg) : Skips (.skipIfPressed x)
  | skipIfNotPressed (x : Reg) : Skips (.skipIfNotPressed x)

/-- The instructions that write `I` (R23). -/
inductive SetsIndex : Instr → Prop
  | loadIndex (nnn : Addr) : SetsIndex (.loadIndex nnn)
  | addIndex (x : Reg) : SetsIndex (.addIndex x)
  | loadFont (x : Reg) : SetsIndex (.loadFont x)

/-- The instructions that store to memory, each with the bytes it stores in a state (R56, R164, R165). -/
inductive StoresBytes (s : State) : Instr → List Byte → Prop
  | storeBcd (x : Reg) : StoresBytes s (.storeBcd x) (decimalDigits (s.reg x))
  | storeRegs (x : Reg) : StoresBytes s (.storeRegs x) (s.regsUpTo x)

/-! ## The two outcomes -/

/-- The instruction raises the fatal error in the state (R252 to R257). -/
inductive Raises (s : State) : Instr → FatalKind → Prop
  | call (nnn : Addr) (full : s.sp.val = 16) : Raises s (.call nnn) .stackOverflow
  | ret (empty : s.sp.val = 0) : Raises s .ret .stackUnderflow
  | loadFont (x : Reg) (noDigit : 15 < (s.reg x).toNat) : Raises s (.loadFont x) (.invalidCharacter (s.reg x))
  | draw (x y : Reg) (n : Nat) (pos : 0 < n) (past : memSize < s.dataAddress + n) :
      Raises s (.draw x y n) (.memoryOutOfBounds 0x1000)
  | store {i : Instr} {bs : List Byte} (hi : StoresBytes s i bs) (past : memSize < s.dataAddress + bs.length) :
      Raises s i (.memoryOutOfBounds 0x1000)
  | loadRegs (x : Reg) (past : memSize < s.dataAddress + (x.val + 1)) :
      Raises s (.loadRegs x) (.memoryOutOfBounds 0x1000)

/-- The instruction completes from `s` (R9): its program-counter effect, and the state its own writes have left before
that effect is applied. -/
inductive Completes (s : State) : Instr → PcEffect → State → Prop
  | clearScreen : Completes s .clearScreen .advance (s.setFb (Vector.replicate 32 0))
  | ret (nonempty : s.sp.val ≠ 0) : Completes s .ret (.jumpTo s.topReturn) s.pop
  | jump (nnn : Addr) : Completes s (.jump nnn) (.jumpTo (offsetTarget nnn)) s
  | call (nnn : Addr) (room : s.sp.val < 16) :
      Completes s (.call nnn) (.jumpTo (offsetTarget nnn)) (s.push s.returnAddress room)
  | jumpV0 (nnn : Addr) : Completes s (.jumpV0 nnn) (.jumpTo (s.indexedTarget nnn)) s
  | skip {i : Instr} (hi : Skips i) (c : Bool) : Completes s i (skipIf c) s
  | idle (x : Reg) : Completes s (.waitKey x) (.jumpTo s.pc) s
  | setReg {i : Instr} {x : Reg} (hi : SetsReg x i) (b : Byte) : Completes s i .advance (s.setReg x b)
  | setFlagAndReg {i : Instr} {x : Reg} (hi : SetsFlagAndReg x i) (c : Bool) (b : Byte) :
      Completes s i .advance ((s.setReg VF (Flags.ofBool c)).setReg x b)
  | random (x : Reg) (kk : Byte) :
      Completes s (.random x kk) .advance (s.countDraw.setReg x (s.randomByte &&& kk))
  | draw (x y : Reg) (n : Nat) (fb : Vector PixelRow 32) (c : Bool) :
      Completes s (.draw x y n) .advance ((s.setFb fb).setReg VF (Flags.ofBool c))
  | setIndex {i : Instr} (hi : SetsIndex i) (a : Addr) : Completes s i .advance (s.setIndex a)
  | setDelay (x : Reg) : Completes s (.setDelay x) .advance (s.setDT (s.reg x))
  | setSound (x : Reg) : Completes s (.setSound x) .advance (s.setST (s.reg x))
  | store {i : Instr} {bs : List Byte} (hi : StoresBytes s i bs) (inside : s.dataAddress + bs.length ≤ memSize) :
      Completes s i .advance (s.writeBytes s.dataAddress bs)
  | loadRegs (x : Reg) (f : Nat → Byte) : Completes s (.loadRegs x) .advance (s.setRegsUpTo x f)

/-- What an instruction answers: it raises a fatal error and changes nothing else, or it completes. -/
inductive Answers (s : State) (i : Instr) : Result → Prop
  | raised {k : FatalKind} (h : Raises s i k) : Answers s i (.next (s.raiseFatal k))
  | completed {e : PcEffect} {u : State} (h : Completes s i e u) : Answers s i (.next (u.applyEffect e))

theorem storeAtIndex_answers {s : State} {i : Instr} {bs : List Byte} (hi : StoresBytes s i bs) :
    Answers s i (storeAtIndex bs s) := by
  by_cases inside : s.dataAddress + bs.length ≤ memSize
  · rw [storeAtIndex_inRange s bs inside]
    exact .completed (.store hi inside)
  · rw [storeAtIndex_past s bs (by omega)]
    exact .raised (.store hi (by omega))

/-- Everything an instruction can answer, whatever the state. -/
theorem exec_answers (i : Instr) (s : State) : Answers s i (exec i s) := by
  cases i with
  | clearScreen => exact .completed .clearScreen
  | ret =>
    by_cases empty : s.sp.val = 0
    · rw [exec_ret_of_zero empty]; exact .raised (.ret empty)
    · rw [exec_ret_of_pos empty]; exact .completed (.ret empty)
  | jump nnn => exact .completed (.jump nnn)
  | call nnn =>
    by_cases room : s.sp.val < 16
    · rw [exec_call_of_lt nnn room]; exact .completed (.call nnn room)
    · rw [exec_call_full nnn (by omega)]; exact .raised (.call nnn (by omega))
  | skipEqImm x kk => exact .completed (.skip (.skipEqImm x kk) _)
  | skipNeImm x kk => exact .completed (.skip (.skipNeImm x kk) _)
  | skipEqReg x y => exact .completed (.skip (.skipEqReg x y) _)
  | skipNeReg x y => exact .completed (.skip (.skipNeReg x y) _)
  | loadImm x kk => exact .completed (.setReg (.loadImm kk) _)
  | addImm x kk => exact .completed (.setReg (.addImm kk) _)
  | loadReg x y => exact .completed (.setReg (.loadReg y) _)
  | orReg x y => exact .completed (.setReg (.orReg y) _)
  | andReg x y => exact .completed (.setReg (.andReg y) _)
  | xorReg x y => exact .completed (.setReg (.xorReg y) _)
  | addReg x y => exact .completed (.setFlagAndReg (.addReg y) _ _)
  | subReg x y => exact .completed (.setFlagAndReg (.subReg y) _ _)
  | shrReg x y => exact .completed (.setFlagAndReg (.shrReg y) _ _)
  | subnReg x y => exact .completed (.setFlagAndReg (.subnReg y) _ _)
  | shlReg x y => exact .completed (.setFlagAndReg (.shlReg y) _ _)
  | loadIndex nnn => exact .completed (.setIndex (.loadIndex nnn) _)
  | jumpV0 nnn => exact .completed (.jumpV0 nnn)
  | random x kk => exact .completed (.random x kk)
  | draw x y n =>
    rcases exec_draw_cases x y n s with ⟨_, h⟩ | ⟨pos, past, h⟩
    · rw [h]; exact .completed (.draw x y n _ _)
    · rw [h]; exact .raised (.draw x y n pos past)
  | skipIfPressed x => exact .completed (.skip (.skipIfPressed x) _)
  | skipIfNotPressed x => exact .completed (.skip (.skipIfNotPressed x) _)
  | readDelay x => exact .completed (.setReg .readDelay _)
  | waitKey x =>
    cases h : s.leastPressed with
    | none => rw [exec_waitKey_none x h, ← applyEffect_self s]; exact .completed (.idle x)
    | some k => rw [exec_waitKey_some x h]; exact .completed (.setReg .waitKey _)
  | setDelay x => exact .completed (.setDelay x)
  | setSound x => exact .completed (.setSound x)
  | addIndex x => exact .completed (.setIndex (.addIndex x) _)
  | loadFont x =>
    by_cases noDigit : 15 < (s.reg x).toNat
    · rw [exec_loadFont_above noDigit]; exact .raised (.loadFont x noDigit)
    · rw [exec_loadFont_digit noDigit]; exact .completed (.setIndex (.loadFont x) _)
  | storeBcd x => exact storeAtIndex_answers (.storeBcd x)
  | storeRegs x => exact storeAtIndex_answers (.storeRegs x)
  | loadRegs x =>
    rcases exec_loadRegs_cases x s with ⟨_, h⟩ | ⟨past, h⟩
    · rw [h]; exact .completed (.loadRegs x _)
    · rw [h]; exact .raised (.loadRegs x past)

/-- Everything an instruction that answers a next state can have done. -/
theorem exec_cases {i : Instr} {s t : State} (h : exec i s = .next t) :
    (∃ k, Raises s i k ∧ t = s.raiseFatal k) ∨ ∃ e u, Completes s i e u ∧ t = u.applyEffect e := by
  have answers := exec_answers i s
  rw [h] at answers
  cases answers with
  | raised hk => exact .inl ⟨_, hk, rfl⟩
  | completed hc => exact .inr ⟨_, _, hc, rfl⟩

/-- Everything a step that answers a next state can have done: only the status changed, or an instruction whose two bytes
exist completed. -/
theorem step_raised_or_completed {s t : State} (h : step s = .next t) :
    (∃ k, t = s.raiseFatal k) ∨
      s.pc.toNat + 2 ≤ memSize ∧ ∃ i e u, Completes s i e u ∧ t = u.applyEffect e := by
  obtain ⟨-, ⟨hpc, i, -, hi⟩ | ⟨-, -, ht⟩ | ⟨-, ht⟩⟩ := step_cases h
  · rcases exec_cases hi with ⟨k, -, ht⟩ | hc
    · exact .inl ⟨k, ht⟩
    · exact .inr ⟨hpc, i, hc⟩
  · exact .inl ⟨_, ht⟩
  · exact .inl ⟨_, ht⟩

/-! ## What every completing instruction keeps -/

section Completes

variable {s u : State} {i : Instr} {e : PcEffect}

theorem Completes.keys_eq (h : Completes s i e u) : u.keys = s.keys := by cases h <;> rfl
theorem Completes.prev_eq (h : Completes s i e u) : u.prev = s.prev := by cases h <;> rfl
theorem Completes.cfg_eq (h : Completes s i e u) : u.cfg = s.cfg := by cases h <;> rfl

/-- No write of an instruction's own touches `PC`: the effect alone moves it (R87). -/
theorem Completes.pc_eq (h : Completes s i e u) : u.pc = s.pc := by cases h <;> rfl

end Completes

end Sys2Proof.Machine
end

section
/-! The invariant through one cycle (O14). -/

namespace Sys2Proof.Machine

/-! ## Where the program counter can go -/

theorem offsetTarget_toNat (nnn : Addr) : (offsetTarget nnn).toNat = 0x200 + nnn.toNat := by
  unfold offsetTarget jumpBase
  bv_omega

theorem indexedTarget_toNat (s : State) (nnn : Addr) :
    (s.indexedTarget nnn).toNat = (s.reg 0).toNat + nnn.toNat := by
  unfold State.indexedTarget
  bv_omega

theorem returnAddress_toNat {s : State} (hpc : s.pc.toNat + 2 ≤ memSize) :
    s.returnAddress.toNat = s.pc.toNat + 2 := by
  unfold memSize at hpc
  unfold State.returnAddress
  bv_omega

/-- Advancing or skipping from a fetched instruction goes at most two bytes past the memory's end. -/
theorem nextPc_skipIf_le {pc : Word} (hpc : pc.toNat + 2 ≤ memSize) (c : Bool) :
    (nextPc pc (skipIf c)).toNat ≤ 0x1002 := by
  unfold memSize at hpc
  rw [nextPc_skipIf]
  split <;> bv_omega

theorem nextPc_advance_le {pc : Word} (hpc : pc.toNat + 2 ≤ memSize) : (nextPc pc .advance).toNat ≤ 0x1002 :=
  nextPc_skipIf_le hpc false

/-- The last return address is one of the slots. -/
theorem topReturn_le {s : State} {b : Nat} (h : ∀ k : Fin 16, s.stack[k.val].toNat ≤ b) : s.topReturn.toNat ≤ b :=
  h ⟨s.sp.val - 1, by omega⟩

/-! ## The parts of the invariant that an instruction can touch -/

section Completes

variable {s u : State} {i : Instr} {e : PcEffect}

theorem Completes.memory_wf (h : Completes s i e u) (hm : Memory.wf s.cfg s.mem) : Memory.wf u.cfg u.mem := by
  cases h with
  | store _ inside => exact Memory.wf_writeBytes _ hm inside
  | _ => exact hm

/-- The only slot ever written takes the address of the instruction after a fetched one (R103). -/
theorem Completes.slots_le (h : Completes s i e u) (hpc : s.pc.toNat + 2 ≤ memSize)
    (hs : ∀ k : Fin 16, s.stack[k.val].toNat ≤ 0x1000) (k : Fin 16) : u.stack[k.val].toNat ≤ 0x1000 := by
  cases h with
  | call nnn room =>
    simp only [State.push_stack, Vector.getElem_set]
    split
    · rw [returnAddress_toNat hpc]; exact hpc
    · exact hs k
  | _ => exact hs k

/-- The jumps reach furthest: 0x200 + 0xFFF (R22, R102). -/
theorem Completes.nextPc_le (h : Completes s i e u) (hpc : s.pc.toNat + 2 ≤ memSize)
    (hs : ∀ k : Fin 16, s.stack[k.val].toNat ≤ 0x1000) : (nextPc s.pc e).toNat ≤ 0x11FF := by
  cases h with
  | ret => exact (topReturn_le hs).trans (by decide)
  | jump nnn | call nnn =>
    rw [nextPc_jumpTo, offsetTarget_toNat]
    omega
  | jumpV0 nnn =>
    rw [nextPc_jumpTo, indexedTarget_toNat]
    omega
  | skip _ c => exact (nextPc_skipIf_le hpc c).trans (by decide)
  | idle => exact (Nat.le_of_add_right_le hpc).trans (by decide)
  | _ => exact (nextPc_advance_le hpc).trans (by decide)

/-- An instruction that completes keeps the invariant. -/
theorem Completes.inv (h : Completes s i e u) (hpc : s.pc.toNat + 2 ≤ memSize) (hs : s.Inv) :
    (u.applyEffect e).Inv where
  memory := h.memory_wf hs.memory
  font := by rw [State.applyEffect_cfg, h.cfg_eq]; exact hs.font
  pc := by rw [State.applyEffect_pc, h.pc_eq]; exact h.nextPc_le hpc hs.slots
  slots := h.slots_le hpc hs.slots
  oneKey := by rw [State.applyEffect_keys, h.keys_eq]; exact hs.oneKey

end Completes

theorem State.Inv.raiseFatal {s : State} (h : s.Inv) (k : FatalKind) : (s.raiseFatal k).Inv :=
  ⟨h.memory, h.font, h.pc, h.slots, h.oneKey⟩

/-- Settles O14: a fatal error changes the status alone, and every instruction that completes keeps each part of the
invariant. -/
theorem stepKeepsTheInvariant : Obligations.StepKeepsTheInvariant := by
  intro s t hs h
  rcases step_raised_or_completed h with ⟨k, rfl⟩ | ⟨hpc, i, e, u, hc, rfl⟩
  · exact hs.raiseFatal k
  · exact hc.inv hpc hs

end Sys2Proof.Machine
end

section
/-! Who writes which part of the state (O17, O19, O20), and that a fatal status is for good (O9). -/

namespace Sys2Proof.Machine

/-! ## The writers of one part of the state -/

section Completes

variable {s u : State} {i : Instr} {e : PcEffect}

theorem Completes.index_writer (h : Completes s i e u) (moved : u.i ≠ s.i) : SetsIndex i := by
  cases h with
  | setIndex hi => exact hi
  | _ => exact absurd rfl moved

theorem Completes.delay_writer (h : Completes s i e u) (moved : u.dt ≠ s.dt) : ∃ x, i = .setDelay x := by
  cases h with
  | setDelay x => exact ⟨x, rfl⟩
  | _ => exact absurd rfl moved

theorem Completes.sound_writer (h : Completes s i e u) (moved : u.st ≠ s.st) : ∃ x, i = .setSound x := by
  cases h with
  | setSound x => exact ⟨x, rfl⟩
  | _ => exact absurd rfl moved

theorem Completes.draws_writer (h : Completes s i e u) (moved : u.draws ≠ s.draws) : ∃ x kk, i = .random x kk := by
  cases h with
  | random x kk => exact ⟨x, kk, rfl⟩
  | _ => exact absurd rfl moved

/-- An instruction that changed VF left a flag there, or VF is its destination (R21). -/
theorem Completes.flag_writer (h : Completes s i e u) (moved : u.reg VF ≠ s.reg VF) :
    (∃ x, SetsFlagAndReg x i) ∨ (∃ x y n, i = .draw x y n) ∨ SetsReg VF i ∨ (∃ kk, i = .random VF kk) ∨
      i = .loadRegs VF := by
  cases h with
  | setFlagAndReg hi => exact .inl ⟨_, hi⟩
  | draw x y n => exact .inr (.inl ⟨x, y, n, rfl⟩)
  | @setReg _ x hi b =>
    have dest : VF = x := by_contra fun hx => moved (s.reg_setReg_other b hx)
    exact .inr (.inr (.inl (dest ▸ hi)))
  | random x kk =>
    have dest : VF = x := by_contra fun hx => moved (s.countDraw.reg_setReg_other _ hx)
    exact .inr (.inr (.inr (.inl ⟨kk, dest ▸ rfl⟩)))
  | loadRegs x f =>
    have reached : VF ≤ x := by_contra fun hx => moved ((s.reg_setRegsUpTo x VF f).trans (if_neg hx))
    exact .inr (.inr (.inr (.inr (congrArg _ (le_antisymm (Fin.le_last x) reached)))))
  | _ => exact absurd rfl moved

end Completes

/-- Settles O17: a fatal error moves none of these, and an instruction that completes has its writer lemmas. -/
theorem writersOfIndexAndTimers : Obligations.WritersOfIndexAndTimers := by
  intro i s t h
  rcases exec_cases h with ⟨k, -, rfl⟩ | ⟨e, u, hc, rfl⟩
  · exact ⟨absurd rfl, absurd rfl, absurd rfl, absurd rfl⟩
  · refine ⟨fun moved => ?_, hc.delay_writer, hc.sound_writer, hc.draws_writer⟩
    cases hc.index_writer moved with
    | loadIndex nnn => exact .inl ⟨nnn, rfl⟩
    | addIndex x => exact .inr ⟨x, .inl rfl⟩
    | loadFont x => exact .inr ⟨x, .inr rfl⟩

/-- Settles O19: a fatal error changes the status alone, and no instruction that completes writes these. -/
theorem cyclesKeepHostOwnedState : Obligations.CyclesKeepHostOwnedState := by
  intro s t h
  rcases step_raised_or_completed h with ⟨k, rfl⟩ | ⟨-, i, e, u, hc, rfl⟩
  · exact ⟨rfl, rfl, rfl⟩
  · exact ⟨hc.keys_eq, hc.prev_eq, hc.cfg_eq⟩

/-! ## The flag register -/

theorem ofBool_eq_zero_or_one (c : Bool) : Flags.ofBool c = 0 ∨ Flags.ofBool c = 1 := by
  cases c
  · exact .inl rfl
  · exact .inr rfl

theorem setsFlagAndReg_iff {x : Reg} {i : Instr} :
    SetsFlagAndReg x i ↔
      ∃ y, i = .addReg x y ∨ i = .subReg x y ∨ i = .shrReg x y ∨ i = .subnReg x y ∨ i = .shlReg x y := by
  constructor
  · rintro (y | y | y | y | y) <;> exact ⟨y, by simp⟩
  · rintro ⟨y, rfl | rfl | rfl | rfl | rfl⟩
    · exact .addReg y
    · exact .subReg y
    · exact .shrReg y
    · exact .subnReg y
    · exact .shlReg y

/-- A flag-writing arithmetic instruction always completes, with a flag value in VF before its result (R130). -/
theorem exec_of_setsFlagAndReg {x : Reg} {i : Instr} (hi : SetsFlagAndReg x i) (s : State) :
    ∃ c b, exec i s = .next (((s.setReg VF (Flags.ofBool c)).setReg x b).applyEffect .advance) := by
  cases hi <;> exact ⟨_, _, rfl⟩

/-- With another destination than VF, the flag value stays there. -/
theorem flag_of_setsFlagAndReg {x : Reg} {i : Instr} {s t : State} (hi : SetsFlagAndReg x i) (hx : x ≠ VF)
    (h : exec i s = .next t) : t.reg VF = 0 ∨ t.reg VF = 1 := by
  obtain ⟨c, b, he⟩ := exec_of_setsFlagAndReg hi s
  obtain rfl := Host.Outcome.next.inj (he.symm.trans h)
  rw [State.reg_applyEffect, State.reg_setReg_other _ b hx.symm, State.reg_setReg_same]
  exact ofBool_eq_zero_or_one c

/-- A `draw` that has not raised a fatal error leaves a flag value in VF (R195, R196). -/
theorem flag_of_draw {x y : Reg} {n : Nat} {s t : State} (h : exec (.draw x y n) s = .next t)
    (running : t.status = .running) : t.reg VF = 0 ∨ t.reg VF = 1 := by
  rcases exec_draw_cases x y n s with ⟨-, he⟩ | ⟨-, -, he⟩
  · obtain rfl := Host.Outcome.next.inj (he.symm.trans h)
    rw [State.reg_applyEffect, State.reg_setReg_same]
    exact ofBool_eq_zero_or_one _
  · obtain rfl := Host.Outcome.next.inj (he.symm.trans h)
    cases running

/-- Settles O20: the writers by cases on what the instruction answered, the flag values from the two kinds of flag
writer. -/
theorem writersOfTheFlagRegister : Obligations.WritersOfTheFlagRegister := by
  intro i s t _ h
  refine ⟨fun moved => ?_, fun x y hx hi => ?_, ?_⟩
  · rcases exec_cases h with ⟨k, -, rfl⟩ | ⟨e, u, hc, rfl⟩
    · exact absurd rfl moved
    · rcases hc.flag_writer moved with ⟨x, hi⟩ | hi | hi | ⟨kk, rfl⟩ | rfl
      · exact .inl ⟨x, setsFlagAndReg_iff.1 hi⟩
      · exact .inr (.inl hi)
      · cases hi <;> simp
      · simp
      · simp
  · exact flag_of_setsFlagAndReg (setsFlagAndReg_iff.2 ⟨y, hi⟩) hx h
  · rintro x y n rfl running
    exact flag_of_draw h running

/-! ## The fatal status -/

/-- Settles O9: construction leaves the status running, and a fatal one is the first thing a cycle and a host operation
look at. -/
theorem fatalStatusIsForGood : Obligations.FatalStatusIsForGood :=
  ⟨fun _ => rfl, fun _ _ hk => step_fatal hk, fun _ op _ hk => apply_fatal hk op⟩

end Sys2Proof.Machine
end

section
/-! A cycle commutes with a change of a part of the state that it does not read: the snapshot (O21) and the count of random
inputs (O59). -/

namespace Sys2Proof.Machine

/-! ## The shared operations commute with such a change -/

section Map

variable {f : State → State} {s : State} (hraise : ∀ k, (f s).raiseFatal k = f (s.raiseFatal k))
include hraise

theorem raise_map (k : FatalKind) : raise k (f s) = mapNext f (raise k s) := congrArg _ (hraise k)

theorem guardRange_map {a n : Nat} {body body' : Result} (hbody : body' = mapNext f body) :
    guardRange a n (f s) body' = mapNext f (guardRange a n s body) := by
  unfold guardRange
  cases outOfRange a n with
  | none => exact hbody
  | some bad => exact raise_map hraise _

theorem cycleWith_map {run : Instr → State → Result} (hpc : (f s).pc = s.pc)
    (hfetch : (f s).fetchWord = s.fetchWord) (hrun : ∀ i, run i (f s) = mapNext f (run i s)) :
    cycleWith run (f s) = mapNext f (cycleWith run s) := by
  unfold cycleWith
  rw [hpc, hfetch]
  refine guardRange_map hraise ?_
  unfold decodeAndRun
  cases decode s.fetchWord with
  | none => exact raise_map hraise _
  | some i => exact hrun i

end Map

/-! ## The snapshot -/

theorem exec_setPrev (i : Instr) (p : Vector PixelRow 32) (s : State) :
    exec i (s.setPrev p) = mapNext (·.setPrev p) (exec i s) := by
  have hraise (k : FatalKind) : (s.setPrev p).raiseFatal k = (s.raiseFatal k).setPrev p := rfl
  cases i with
  | ret => symm; exact apply_ite (mapNext (·.setPrev p)) (s.sp.val = 0) _ _
  | call nnn => symm; exact apply_dite (mapNext (·.setPrev p)) (s.sp.val < 16) _ _
  | loadFont x => symm; exact apply_ite (mapNext (·.setPrev p)) (15 < (s.reg x).toNat) _ _
  | waitKey x =>
    cases h : s.leastPressed with
    | none => rw [exec_waitKey_none x h, exec_waitKey_none (s := s.setPrev p) x h]; rfl
    | some k => rw [exec_waitKey_some x h, exec_waitKey_some (s := s.setPrev p) x h]; rfl
  | draw | storeBcd | storeRegs | loadRegs => exact guardRange_map (f := (·.setPrev p)) hraise rfl
  | _ => rfl

/-- Settles O21: neither the fetch nor any instruction reads the snapshot. -/
theorem cyclesIgnoreTheSnapshot : Obligations.CyclesIgnoreTheSnapshot := by
  intro s p
  show step (s.setPrev p) = mapNext (·.setPrev p) (step s)
  cases hs : s.status with
  | fatal k => rw [step_fatal hs, step_fatal (s := s.setPrev p) hs]; rfl
  | running =>
    rw [step_running hs, step_running (s := s.setPrev p) hs]
    exact cycleWith_map (f := (·.setPrev p)) (fun _ => rfl) rfl rfl fun i => exec_setPrev i p s

/-! ## The random input -/

theorem cycle_withDraws (r : Byte) (d : Nat) (s : State) :
    (s.withDraws d).cycle r = mapNext (·.withDraws d) (s.cycle r) := by
  cases hs : s.status with
  | fatal k => rw [cycle_fatal hs, cycle_fatal (s := s.withDraws d) hs]; rfl
  | running =>
    rw [cycle_running hs, cycle_running (s := s.withDraws d) hs]
    exact cycleWith_map (f := (·.withDraws d)) (fun _ => rfl) rfl rfl fun i => execOn_withDraws r i d s

theorem blockOf_mapNext_withDraws (d : Nat) (a : Result) : blockOf (mapNext (·.withDraws d) a) = blockOf a := by
  cases a <;> rfl

/-- Machines whose blocks agree do the same on the same byte (R86). -/
theorem blockOf_cycle_congr (r : Byte) {s t : State} (h : t.toBlock = s.toBlock) :
    blockOf (t.cycle r) = blockOf (s.cycle r) := by
  rw [eq_withDraws h, cycle_withDraws, blockOf_mapNext_withDraws]

/-- Two ways to execute instructions that agree, as far as `g` sees, on the instruction fetched give cycles that agree as
far as `g` sees. -/
theorem cycleWith_congr {α : Type} (g : Result → α) {run run' : Instr → State → Result} {s : State}
    (h : ∀ i, decode s.fetchWord = some i → g (run i s) = g (run' i s)) :
    g (cycleWith run s) = g (cycleWith run' s) := by
  unfold cycleWith guardRange
  cases outOfRange s.pc.toNat 2 with
  | some bad => rfl
  | none =>
    show g (decodeAndRun run s.fetchWord s) = g (decodeAndRun run' s.fetchWord s)
    unfold decodeAndRun
    cases hd : decode s.fetchWord with
    | none => rfl
    | some i => exact h i hd

/-- Both cycles look at the status first, so what relates their running cases relates them. -/
theorem cycle_congr_step {α : Type} (g : Result → α) {r : Byte} {s : State}
    (h : ∀ i, decode s.fetchWord = some i → g (execOn r i s) = g (exec i s)) : g (s.cycle r) = g (step s) := by
  cases hs : s.status with
  | fatal k => rw [cycle_fatal hs, step_fatal hs]
  | running => rw [cycle_running hs, step_running hs]; exact cycleWith_congr g h

/-- Without a `random` to run, the cycle is `step`, whatever the byte. -/
theorem cycle_eq_step (r : Byte) {s : State} (h : ∀ x kk, decode s.fetchWord ≠ some (.random x kk)) :
    s.cycle r = step s :=
  cycle_congr_step id fun _ hd => execOn_other r s fun x kk hi => h x kk (hi ▸ hd)

/-- `step` does to the block what the cycle does on the free byte. -/
theorem blockOf_step (s : State) : blockOf (step s) = blockOf (s.cycle (Config.drawByte s.draws)) :=
  (cycle_congr_step blockOf fun i _ => (blockOf_exec i s).symm).symm

/-- The frame of an instruction whose one write is a register (D12). -/
theorem unchangedBut_setReg (s : State) (x : Reg) (b : Byte) (e : PcEffect) :
    UnchangedBut [.pc, .reg x] s ((s.setReg x b).applyEffect e) := by
  intro p hp
  cases p with
  | reg r =>
    have hr : r ≠ x := fun hr => hp (by simp [hr])
    exact s.reg_setReg_other b hr
  | pc => exact absurd (List.mem_cons_self ..) hp
  | _ => rfl

/-- Settles O59, clause by clause: the count is read by nothing, only `random` reads the byte, and the host's operation runs
the cycle. -/
theorem cycleTakesTheRandomByteAsAnInput : Obligations.CycleTakesTheRandomByteAsAnInput := by
  intro s r
  refine ⟨fun t => blockOf_cycle_congr r, cycle_eq_step r, fun x kk running hpc hd => ?_, blockOf_step s,
    fun h running => ?_⟩
  · refine ⟨_, (cycle_eq_execOn running (Nat.succ_le_succ hpc) hd).trans (execOn_random r x kk s), fun k => ?_, rfl,
      unchangedBut_setReg s x _ _⟩
    rw [State.reg_applyEffect, State.reg_setReg_same, BitVec.getLsbD_and]
  · obtain ⟨t, ht⟩ := cycle_answers_next r running
    exact ⟨t, ht, (apply_running running _).trans (session_cycle_of_next ht)⟩

end Sys2Proof.Machine
end

section
/-! Who writes memory, the screen and the stack (O18), and that an access past the memory's end is fatal (O44). -/

namespace Sys2Proof.Machine

/-! ## The writers of memory, the screen and the stack -/

section Completes

variable {s u : State} {i : Instr} {e : PcEffect}

theorem Completes.memory_writer (h : Completes s i e u) {a : Nat} (moved : u.readByte a ≠ s.readByte a) :
    ∃ bs, StoresBytes s i bs := by
  cases h with
  | store hi _ => exact ⟨_, hi⟩
  | _ => exact absurd rfl moved

theorem Completes.screen_writer (h : Completes s i e u) (moved : u.fb ≠ s.fb) :
    i = .clearScreen ∨ ∃ x y n, i = .draw x y n := by
  cases h with
  | clearScreen => exact .inl rfl
  | draw x y n => exact .inr ⟨x, y, n, rfl⟩
  | _ => exact absurd rfl moved

/-- A return keeps the slot it pops, so a call alone writes one (R101, R103). -/
theorem Completes.slot_writer (h : Completes s i e u) (moved : u.stack ≠ s.stack) : ∃ nnn, i = .call nnn := by
  cases h with
  | call nnn => exact ⟨nnn, rfl⟩
  | _ => exact absurd rfl moved

theorem Completes.sp_writer (h : Completes s i e u) (moved : u.sp ≠ s.sp) : i = .ret ∨ ∃ nnn, i = .call nnn := by
  cases h with
  | ret => exact .inl rfl
  | call nnn => exact .inr ⟨nnn, rfl⟩
  | _ => exact absurd rfl moved

end Completes

theorem StoresBytes.storeBcd_or_storeRegs {s : State} {i : Instr} {bs : List Byte} (h : StoresBytes s i bs) :
    ∃ x, i = .storeBcd x ∨ i = .storeRegs x := by
  cases h with
  | storeBcd x => exact ⟨x, .inl rfl⟩
  | storeRegs x => exact ⟨x, .inr rfl⟩

/-- Settles O18: a fatal error moves none of these, and an instruction that completes has its writer lemmas. -/
theorem writersOfMemoryScreenAndStack : Obligations.WritersOfMemoryScreenAndStack := by
  intro i s t h
  rcases exec_cases h with ⟨k, -, rfl⟩ | ⟨e, u, hc, rfl⟩
  · exact ⟨fun ⟨_, moved⟩ => absurd rfl moved, fun ⟨_, moved⟩ => absurd rfl moved,
      fun ⟨_, moved⟩ => absurd rfl moved, absurd rfl⟩
  · refine ⟨fun ⟨a, moved⟩ => ?_, fun ⟨r, moved⟩ => ?_, fun ⟨k, moved⟩ => ?_, hc.sp_writer⟩
    · obtain ⟨bs, hi⟩ := hc.memory_writer moved
      exact hi.storeBcd_or_storeRegs
    · exact hc.screen_writer fun same => moved (congrArg (·[r.val]) same)
    · exact hc.slot_writer fun same => moved (congrArg (·[k.val]) same)

/-! ## The fatal errors -/

theorem exec_of_storesBytes {s : State} {i : Instr} {bs : List Byte} (h : StoresBytes s i bs) :
    exec i s = storeAtIndex bs s := by
  cases h <;> rfl

/-- An instruction that raises a fatal error answers the state with only its status changed (R259). -/
theorem Raises.exec_eq {s : State} {i : Instr} {k : FatalKind} (h : Raises s i k) :
    exec i s = .next (s.raiseFatal k) := by
  cases h with
  | call nnn full => exact exec_call_full nnn full
  | ret empty => exact exec_ret_of_zero empty
  | loadFont x noDigit => exact exec_loadFont_above noDigit
  | draw x y n _ past => exact exec_draw_past x y past
  | store hi past => rw [exec_of_storesBytes hi, storeAtIndex_past s _ past]
  | loadRegs x past => exact guardRange_pastIndex s _ past

/-- Settles O44: each of the four accesses is a case of `Raises`, which names the lowest address that does not exist. -/
theorem accessPastMemoryIsFatal : Obligations.AccessPastMemoryIsFatal := by
  intro s
  have size : memSize = 0x1000 := rfl
  refine ⟨fun x past => ?_, fun x past => ⟨?_, ?_⟩, fun x y n pos past => ?_⟩
  · exact (Raises.store (.storeBcd x) (by rw [length_decimalDigits]; omega)).exec_eq
  · exact (Raises.store (.storeRegs x) (by rw [State.length_regsUpTo]; omega)).exec_eq
  · exact (Raises.loadRegs x (by omega)).exec_eq
  · exact (Raises.draw x y n pos (by omega)).exec_eq

end Sys2Proof.Machine
end

section
/-! The decoder and the encoder are inverse to each other (O1, O2, O60), and words written out decode (O5). -/

namespace Sys2Proof

/-- Settles O1, row by row: the encoder's formats are the words whose decoding the rows of R76 give. -/
theorem decodeOfEncode : Obligations.DecodeOfEncode := by
  intro i wf
  cases i with
  | clearScreen | ret => decide
  | jump nnn => rw [encode, wordFN_eq, decode_jump]
  | call nnn => rw [encode, wordFN_eq, decode_call]
  | loadIndex nnn => rw [encode, wordFN_eq, decode_loadIndex]
  | jumpV0 nnn => rw [encode, wordFN_eq, decode_jumpV0]
  | skipEqImm x kk => rw [encode, wordFXK_eq, decode_skipEqImm]
  | skipNeImm x kk => rw [encode, wordFXK_eq, decode_skipNeImm]
  | loadImm x kk => rw [encode, wordFXK_eq, decode_loadImm]
  | addImm x kk => rw [encode, wordFXK_eq, decode_addImm]
  | random x kk => rw [encode, wordFXK_eq, decode_random]
  | skipEqReg x y => exact decode_skipEqReg x y 0
  | skipNeReg x y => exact decode_skipNeReg x y 0
  | loadReg x y | orReg x y | andReg x y | xorReg x y | addReg x y | subReg x y | shrReg x y | subnReg x y
  | shlReg x y => exact decode_alu x y _
  | draw x y n => exact decode_draw x y (of_decide_eq_true wf)
  | skipIfPressed x | skipIfNotPressed x => rw [encode, wordFXK_eq, decode_keySkip]; rfl
  | readDelay x | waitKey x | setDelay x | setSound x | addIndex x | loadFont x | storeBcd x | storeRegs x
  | loadRegs x => rw [encode, wordFXK_eq, decode_misc]; rfl

/-! ## The formats of R74 as their four nibbles -/

section Formats

variable (a b c d : Nibble)

theorem wordFXK_nibbles : wordFXK a (regOfNibble b) (c ++ d) = wordOfNibbles a b c d := by
  rw [wordFXK, nibbleOfReg_regOfNibble, BitVec.extractLsb'_append_eq_left, BitVec.extractLsb'_append_eq_right]

theorem wordFXYN_nibbles : wordFXYN a (regOfNibble b) (regOfNibble c) d = wordOfNibbles a b c d := by
  rw [wordFXYN, nibbleOfReg_regOfNibble, nibbleOfReg_regOfNibble]

theorem wordFN_nibbles : wordFN a (b ++ c ++ d) = wordOfNibbles a b c d := by
  rw [wordFN_eq, wordOfNibbles]
  apply BitVec.eq_of_getLsbD_eq; intro k hk
  simp only [BitVec.getLsbD_append]
  interval_cases k <;> rfl

end Formats

/-! ## What each part of the decoder reads is encoded by what it reads -/

section Reads

variable {a b c d : Nibble} {x y : Reg} {kk : Byte} {i : Instr}

theorem encode_of_decodeAlu (h : decodeAlu x y d = some i) :
    i.wellFormed = true ∧ encode i = wordFXYN 0x8#4 x y d := by
  unfold decodeAlu at h
  split at h <;> cases h
  all_goals exact ⟨rfl, congrArg (wordFXYN 0x8#4 x y) (BitVec.eq_of_toNat_eq ‹d.toNat = _›.symm)⟩

theorem encode_of_decodeKeySkip (h : decodeKeySkip x kk = some i) :
    i.wellFormed = true ∧ encode i = wordFXK 0xE#4 x kk := by
  unfold decodeKeySkip at h
  split at h <;> cases h
  all_goals exact ⟨rfl, congrArg (wordFXK 0xE#4 x) (BitVec.eq_of_toNat_eq ‹kk.toNat = _›.symm)⟩

theorem encode_of_decodeMisc (h : decodeMisc x kk = some i) :
    i.wellFormed = true ∧ encode i = wordFXK 0xF#4 x kk := by
  unfold decodeMisc at h
  split at h <;> cases h
  all_goals exact ⟨rfl, congrArg (wordFXK 0xF#4 x) (BitVec.eq_of_toNat_eq ‹kk.toNat = _›.symm)⟩

theorem encode_of_decodeFixed (h : decodeFixed b kk = some i) :
    i.wellFormed = true ∧ encode i = wordFXK 0x0#4 (regOfNibble b) kk := by
  unfold decodeFixed at h
  split at h
  · subst b
    split at h <;> cases h
    · obtain rfl : kk = 0xE0#8 := BitVec.eq_of_toNat_eq ‹_›
      decide
    · obtain rfl : kk = 0xEE#8 := BitVec.eq_of_toNat_eq ‹_›
      decide
  · cases h

/-- The first nibble chooses the format (R74), and with it what the other three hold. -/
theorem encode_of_decodeNibbles (h : decodeNibbles a b c d = some i) :
    i.wellFormed = true ∧ encode i = wordOfNibbles a b c d := by
  obtain ⟨k⟩ := a
  match k, h with
  | 0, h => exact wordFXK_nibbles 0x0#4 b c d ▸ encode_of_decodeFixed h
  | 1, h | 2, h | 10, h | 11, h =>
    cases h
    exact ⟨rfl, wordFN_nibbles ..⟩
  | 3, h | 4, h | 6, h | 7, h | 12, h =>
    cases h
    exact ⟨rfl, wordFXK_nibbles ..⟩
  | 5, h | 9, h =>
    obtain ⟨rfl, hi⟩ := Option.ite_none_right_eq_some.1 h
    cases hi
    exact ⟨rfl, wordFXYN_nibbles ..⟩
  | 8, h => exact wordFXYN_nibbles 0x8#4 b c d ▸ encode_of_decodeAlu h
  | 13, h =>
    cases h
    refine ⟨decide_eq_true (Nat.le_of_lt_succ d.isLt), ?_⟩
    rw [encode, BitVec.ofNat_toNat, BitVec.setWidth_eq]
    exact wordFXYN_nibbles ..
  | 14, h => exact wordFXK_nibbles 0xE#4 b c d ▸ encode_of_decodeKeySkip h
  | 15, h => exact wordFXK_nibbles 0xF#4 b c d ▸ encode_of_decodeMisc h
  | ⟨_ + 16, hk⟩, _ => omega

end Reads

/-- Settles O2: a word is its four nibbles, and the decoder reads those. -/
theorem encodeOfDecode : Obligations.EncodeOfDecode := by
  intro w i h
  obtain ⟨wf, hw⟩ := encode_of_decodeNibbles h
  exact ⟨wf, hw.trans (nibbles_of_word w)⟩

/-! ## Reading bytes -/

/-- Bytes are read exactly when there are two that decode; the others come back as they are (R70, R71). -/
theorem decodeBytes_eq_ok {bytes rest : List Byte} {i : Instr} :
    decodeBytes bytes = .ok (i, rest) ↔ ∃ hi lo, bytes = hi :: lo :: rest ∧ decode (hi ++ lo) = some i := by
  constructor
  · intro h
    unfold decodeBytes at h
    split at h
    · next hi lo rest' =>
      split at h <;> cases h
      exact ⟨hi, lo, rfl, ‹_›⟩
    · cases h
  · rintro ⟨hi, lo, rfl, hd⟩
    rw [decodeBytes, hd]

/-- Settles O60: bytes are read exactly when the first two are an instruction's word, and what follows is given back. -/
theorem everyInstructionIsTwoBytes : Obligations.EveryInstructionIsTwoBytes := by
  refine ⟨fun i rest wf => ⟨rfl, ?_⟩, fun bytes rest i h => ?_, fun hi lo rest rest' i h => ?_⟩
  · exact decodeBytes_eq_ok.2 ⟨_, _, rfl, by rw [bytes_of_word]; exact decodeOfEncode i wf⟩
  · obtain ⟨hi, lo, rfl, -⟩ := decodeBytes_eq_ok.1 h
    rfl
  · obtain ⟨hi', lo', hb, hd⟩ := decodeBytes_eq_ok.1 h
    cases hb
    exact decodeBytes_eq_ok.2 ⟨hi, lo, rfl, hd⟩

/-- Settles O5 by evaluating the decoder. -/
theorem writtenWordsDecode : Obligations.WrittenWordsDecode := by
  unfold Obligations.WrittenWordsDecode
  decide

end Sys2Proof
end

section
/-! Which words decode to nothing: those of R78's six classes (O4), and those that match none of the 34 rows of R76, no
two of which share a word (O3). -/

namespace Sys2Proof

open Laws.EncodesItsRow (and_F000 and_F00F and_F0FF)

section Nibbles

variable {a b c d : Nibble} {x y : Reg} {kk : Byte}

/-! ## What each part of the decoder does not read -/

theorem decodeFixed_eq_none : decodeFixed b kk = none ↔ ¬ (b = 0 ∧ kk ∈ [0xE0#8, 0xEE#8]) := by
  unfold decodeFixed
  split
  · split <;> simp_all [BitVec.toNat_eq]
  · simp_all

theorem decodeAlu_eq_none :
    decodeAlu x y d = none ↔ d ∉ [0x0#4, 0x1#4, 0x2#4, 0x3#4, 0x4#4, 0x5#4, 0x6#4, 0x7#4, 0xE#4] := by
  unfold decodeAlu
  split <;> simp_all [BitVec.toNat_eq]

theorem decodeKeySkip_eq_none : decodeKeySkip x kk = none ↔ kk ∉ [0x9E#8, 0xA1#8] := by
  unfold decodeKeySkip
  split <;> simp_all [BitVec.toNat_eq]

theorem decodeMisc_eq_none : decodeMisc x kk = none ↔
    kk ∉ [0x07#8, 0x0A#8, 0x15#8, 0x18#8, 0x1E#8, 0x29#8, 0x33#8, 0x55#8, 0x65#8] := by
  unfold decodeMisc
  split <;> simp_all [BitVec.toNat_eq]

/-- The first nibbles 0, 5, 8, 9, E and F leave words without a row; under every other one each word has its row. -/
theorem decodeNibbles_eq_none : decodeNibbles a b c d = none ↔
    (a = 0x0 ∧ decodeFixed b (c ++ d) = none) ∨
    (a = 0x5 ∧ d ≠ 0) ∨
    (a = 0x8 ∧ decodeAlu (regOfNibble b) (regOfNibble c) d = none) ∨
    (a = 0x9 ∧ d ≠ 0) ∨
    (a = 0xE ∧ decodeKeySkip (regOfNibble b) (c ++ d) = none) ∨
    (a = 0xF ∧ decodeMisc (regOfNibble b) (c ++ d) = none) := by
  obtain ⟨k⟩ := a
  fin_cases k <;> simp [decodeNibbles]

/-- The function nibbles of the rows `8xy_`, and the others (R76, R78). -/
theorem notMem_aluNibbles : ∀ d : Nibble, d ∉ [0x0#4, 0x1#4, 0x2#4, 0x3#4, 0x4#4, 0x5#4, 0x6#4, 0x7#4, 0xE#4] ↔
    d ∈ [0x8#4, 0x9#4, 0xA#4, 0xB#4, 0xC#4, 0xD#4, 0xF#4] := by decide

/-- The low bytes of the rows `00__`, nibble by nibble. -/
theorem mem_fixedBytes : ∀ c d : Nibble, c ++ d ∈ [0xE0#8, 0xEE#8] ↔ c = 0xE ∧ (d = 0x0 ∨ d = 0xE) := by
  decide

end Nibbles

/-- Settles O4: each class is what one part of the decoder does not read. -/
theorem invalidWordsAreTheSixClasses : Obligations.InvalidWordsAreTheSixClasses := by
  intro a b c d
  rw [decode_nibbles, decodeNibbles_eq_none, decodeFixed_eq_none, decodeAlu_eq_none, decodeKeySkip_eq_none,
    decodeMisc_eq_none, notMem_aluNibbles, mem_fixedBytes]

/-! ## Matching a row -/

section Rows

variable {w p : Word}

/-- A mask that keeps only the first nibble fixes it (R76). -/
theorem fixed_of_F000 (h : w &&& 0xF000 = p) : nibbleA w = nibbleA p := by
  rw [← h, ← nibbles_of_word w, ← wordOfNibbles, and_F000, wordOfNibbles, nibbleA_nibbles, nibbleA_nibbles]

/-- A mask that keeps the first and the last nibble fixes them. -/
theorem fixed_of_F00F (h : w &&& 0xF00F = p) : nibbleA w = nibbleA p ∧ nibbleD w = nibbleD p := by
  rw [← h, ← nibbles_of_word w, ← wordOfNibbles, and_F00F]
  simp [wordOfNibbles]

/-- A mask that keeps all but the second nibble fixes them. -/
theorem fixed_of_F0FF (h : w &&& 0xF0FF = p) :
    nibbleA w = nibbleA p ∧ nibbleC w = nibbleC p ∧ nibbleD w = nibbleD p := by
  rw [← h, ← nibbles_of_word w, ← wordOfNibbles, and_F0FF]
  simp [wordOfNibbles]

/-- A mask that keeps every nibble fixes the word. -/
theorem fixed_of_FFFF (h : w &&& 0xFFFF = p) : w = p := by
  rwa [show (0xFFFF : Word) = BitVec.allOnes 16 by decide, BitVec.and_allOnes] at h

end Rows

/-- A word that matches an instruction's row decodes: the nibbles that the row fixes are those the decoder looks at. -/
theorem decode_ne_none_of_matchesWord {i : Instr} {w : Word} (h : i.row.matchesWord w) : decode w ≠ none := by
  cases i with
  | clearScreen | ret => rw [fixed_of_FFFF h]; decide
  | jump | call | skipEqImm | skipNeImm | loadImm | addImm | loadIndex | jumpV0 | random | draw =>
    simp only [Instr.row] at h
    rw [decode, fixed_of_F000 h]
    exact Option.some_ne_none _
  | skipEqReg | skipNeReg | loadReg | orReg | andReg | xorReg | addReg | subReg | shrReg | subnReg | shlReg =>
    simp only [Instr.row] at h
    obtain ⟨ha, hd⟩ := fixed_of_F00F h
    rw [decode, ha, hd]
    exact Option.some_ne_none _
  | _ =>
    simp only [Instr.row] at h
    obtain ⟨ha, hc, hd⟩ := fixed_of_F0FF h
    rw [decode, ha, hc, hd]
    exact Option.some_ne_none _

/-- The pattern of a row is a word of the row, so every row of R76 has its instruction. -/
theorem row_of_decode_pattern : ∀ r ∈ opcodeRows, (decode r.pattern).map Instr.row = some r := by decide

theorem row_mem_opcodeRows (i : Instr) : i.row ∈ opcodeRows := by
  cases i <;> (simp only [Instr.row]; decide)

/-- An instruction's word matches its row: the row's mask keeps what the format fixes (R74, R76). -/
theorem encode_matchesWord (i : Instr) : i.row.matchesWord (encode i) := by
  cases i with
  | clearScreen | ret => decide
  | jump | call | skipEqImm | skipNeImm | loadImm | addImm | loadIndex | jumpV0 | random | draw =>
    exact and_F000 _ _ _ _
  | skipEqReg | skipNeReg | loadReg | orReg | andReg | xorReg | addReg | subReg | shrReg | subnReg | shlReg =>
    exact and_F00F _ _ _ _
  | _ => exact and_F0FF _ _ _ _

/-- Two rows share no word when they fix some common bit differently. -/
theorem not_matchesWord_both {r q : OpcodeRow} (h : r.pattern &&& q.mask ≠ q.pattern &&& r.mask) (w : Word) :
    ¬ (r.matchesWord w ∧ q.matchesWord w) := by
  rintro ⟨hr, hq⟩
  refine h ?_
  rw [← hr, ← hq, BitVec.and_assoc, BitVec.and_assoc, BitVec.and_comm r.mask]

theorem opcodeRows_disagree : opcodeRows.Pairwise fun r q => r.pattern &&& q.mask ≠ q.pattern &&& r.mask := by
  decide

/-- Settles O3: every word of a row decodes, a word that decodes is an instruction's encoding and so matches its row,
and any two rows disagree on a bit that both fix. -/
theorem decodeMatchesExactlyTheRows : Obligations.DecodeMatchesExactlyTheRows := by
  refine ⟨rfl, fun w => ⟨fun hd r hr hm => ?_, fun hno => ?_⟩, opcodeRows_disagree.imp not_matchesWord_both⟩
  · obtain ⟨i, -, rfl⟩ := Option.map_eq_some_iff.1 (row_of_decode_pattern r hr)
    exact decode_ne_none_of_matchesWord hm hd
  · by_contra hd
    obtain ⟨i, hi⟩ := Option.ne_none_iff_exists'.1 hd
    obtain ⟨-, hw⟩ := encodeOfDecode w i hi
    exact hno i.row (row_mem_opcodeRows i) (hw ▸ encode_matchesWord i)

end Sys2Proof
end

section
/-! The cycle of a running machine: fetching, decoding and running one instruction (O6, O7, O8, O11). -/

namespace Sys2Proof.Machine

/-- A cycle whose bytes exist and decode to nothing (R78, R86). -/
theorem step_invalidOpcode {s : State} (h : s.status = .running) (hpc : s.pc.toNat + 2 ≤ memSize)
    (hd : decode s.fetchWord = none) : step s = .next (s.raiseFatal (.invalidOpcode s.fetchWord)) := by
  rw [step_running h, cycleWith, guardRange_inRange _ _ (.inr hpc), decodeAndRun, hd, raise_eq]

/-- A cycle whose fetch runs past the memory's end (R86). -/
theorem step_fetchPast {s : State} (h : s.status = .running) (past : memSize < s.pc.toNat + 2) :
    step s = .next (s.raiseFatal (.memoryOutOfBounds (max s.pc.toNat memSize))) := by
  rw [step_running h, cycleWith, guardRange_outside _ _ (by decide) past]

theorem exec_answers_next (i : Instr) (s : State) : ∃ t, exec i s = .next t := by
  have answers := exec_answers i s
  generalize exec i s = r at answers ⊢
  cases answers with
  | raised => exact ⟨_, rfl⟩
  | completed => exact ⟨_, rfl⟩

/-- Settles O11: the fetch runs past memory, or its word decodes to nothing, or an instruction runs. -/
theorem runningMachineAlwaysSteps : Obligations.RunningMachineAlwaysSteps := by
  intro s running
  by_cases hpc : s.pc.toNat + 2 ≤ memSize
  · cases hd : decode s.fetchWord with
    | none => exact ⟨_, step_invalidOpcode running hpc hd⟩
    | some i => rw [step_eq_exec running hpc hd]; exact exec_answers_next i s
  · exact ⟨_, step_fetchPast running (by omega)⟩

/-- Settles O6: the two bytes at `PC` are the fetched word. -/
theorem stepRunsTheDecodedInstruction : Obligations.StepRunsTheDecodedInstruction :=
  fun _ _ running hpc hd => step_eq_exec running (Nat.succ_le_succ hpc) hd

/-- Settles O7: the word is raised before any part of an instruction executes. -/
theorem stepOnInvalidWordRaises : Obligations.StepOnInvalidWordRaises :=
  fun _ running hpc hd => step_invalidOpcode running (Nat.succ_le_succ hpc) hd

/-- Settles O8: from above 0xFFF the first address is the lowest that does not exist, from 0xFFF the second. -/
theorem stepOnFetchPastMemoryRaises : Obligations.StepOnFetchPastMemoryRaises := by
  intro s running
  have size : memSize = 0x1000 := rfl
  refine ⟨fun past => ?_, fun last => ?_⟩
  · rw [step_fetchPast running (by omega), Nat.max_eq_left (by omega)]; rfl
  · rw [step_fetchPast running (by omega), Nat.max_eq_right (by omega)]; rfl

end Sys2Proof.Machine
end

section
/-! Control transfer: the jumps, `call` and `return`, and the four skips that compare values (O22, O23, O25 to O29). -/

namespace Sys2Proof.Machine

/-! ## Frames -/

/-- A frame may list a part twice, or in another order, or list more. -/
theorem UnchangedBut.mono {ps qs : List Part} {s t : State} (h : UnchangedBut ps s t) (sub : ps ⊆ qs) :
    UnchangedBut qs s t :=
  fun p hp => h p fun mem => hp (sub mem)

/-- Two instructions in a row leave unchanged what both leave unchanged. -/
theorem UnchangedBut.trans {ps qs : List Part} {s t u : State} (hst : UnchangedBut ps s t)
    (htu : UnchangedBut qs t u) : UnchangedBut (ps ++ qs) s u := by
  intro p hp
  have hp' : p ∉ ps ∧ p ∉ qs := by simpa using hp
  have first := hst p hp'.1
  have second := htu p hp'.2
  cases p <;> exact Eq.trans second first

/-- A part that reads the same after all need not be listed. -/
theorem UnchangedBut.restore {q : Part} {ps : List Part} {s t : State} (h : UnchangedBut (q :: ps) s t)
    (same : q.same s t) : UnchangedBut ps s t := by
  intro p hp
  by_cases hq : p = q
  · exact hq ▸ same
  · exact h p fun mem => (List.mem_cons.1 mem).elim hq hp

/-- The frame of an instruction without a write of its own (R87, D12). -/
theorem unchangedBut_applyEffect (s : State) (e : PcEffect) : UnchangedBut [.pc] s (s.applyEffect e) := by
  intro p hp
  cases p with
  | pc => exact absurd (List.mem_singleton_self _) hp
  | _ => rfl

/-- The frame of a pop: the slot keeps its value (R24, R101). -/
theorem unchangedBut_pop (s : State) : UnchangedBut [.sp] s s.pop := by
  intro p hp
  cases p with
  | sp => exact absurd (List.mem_singleton_self _) hp
  | _ => rfl

/-- The frame of a push: the next free slot is the only one written (R24, R25). -/
theorem unchangedBut_push {s : State} {k : Fin 16} (ra : Word) (room : s.sp.val < 16) (hk : s.sp.val = k.val) :
    UnchangedBut [.sp, .slot k] s (s.push ra room) := by
  intro p hp
  cases p with
  | sp => exact absurd (List.mem_cons_self ..) hp
  | slot j =>
    have other : k.val ≠ j.val := fun hj => hp (by simp [Fin.ext hj])
    exact Vector.getElem_set_ne room j.isLt (hk ▸ other)
  | _ => rfl

/-! ## The call stack -/

/-- The return address last pushed lies in the slot below `SP` (R25, R101). -/
theorem topReturn_eq {s : State} {k : Fin 16} (hk : s.sp.val = k.val + 1) : s.topReturn = s.stack[k.val] := by
  simp [State.topReturn, hk]

/-- The address pushed lies in the slot that `SP` named (R25, R103). -/
theorem push_stack_getElem {s : State} {k : Fin 16} (ra : Word) (room : s.sp.val < 16) (hk : s.sp.val = k.val) :
    (s.push ra room).stack[k.val] = ra := by
  simp [hk]

/-- Settles O22: a non-empty stack gives its last slot, and `SP` falls before the jump. -/
theorem returnPopsThePC : Obligations.ReturnPopsThePC := by
  refine ⟨by decide, fun s k hk => ?_⟩
  refine ⟨_, exec_ret_of_pos (by omega), ?_, topReturn_eq hk, ?_⟩
  · exact congrArg (· - 1) hk
  · exact ((unchangedBut_pop s).trans (unchangedBut_applyEffect _ _)).mono (by simp)

/-- Settles O23: below 16 nested calls the push succeeds, and the jump follows it. -/
theorem callPushesTheReturnAddress : Obligations.CallPushesTheReturnAddress := by
  refine fun nnn => ⟨decode_call nnn, fun s k hk => ?_⟩
  have room : s.sp.val < 16 := hk ▸ k.isLt
  refine ⟨_, exec_call_of_lt nnn room, push_stack_getElem _ room hk, ?_, offsetTarget_toNat nnn, ?_⟩
  · exact congrArg (· + 1) hk
  · exact ((unchangedBut_push _ room hk).trans (unchangedBut_applyEffect _ _)).mono (by simp)

/-- Settles O25: the return pops the slot that the call filled (O22, O23), and what neither of the two changes is
unchanged; `SP` is back where it was. -/
theorem callThenReturnComesBack : Obligations.CallThenReturnComesBack := by
  intro s nnn k hk
  obtain ⟨-, call⟩ := callPushesTheReturnAddress nnn
  obtain ⟨-, ret⟩ := returnPopsThePC
  obtain ⟨t, called, slot, tsp, -, callFrame⟩ := call s k hk
  obtain ⟨u, returned, usp, upc, retFrame⟩ := ret t k tsp
  have sp_back : u.sp = s.sp := Fin.ext (usp.trans hk.symm)
  refine ⟨t, u, called, returned, upc.trans slot, sp_back, UnchangedBut.restore (q := .sp) ?_ sp_back⟩
  exact (callFrame.trans retFrame).mono (by simp)

/-! ## The jumps -/

/-- Settles O26: the jump has no write of its own, and its target does not wrap. -/
theorem jumpAddsTheBaseOffset : Obligations.JumpAddsTheBaseOffset :=
  fun nnn => ⟨decode_jump nnn, fun s => ⟨_, rfl, offsetTarget_toNat nnn, unchangedBut_applyEffect s _⟩⟩

/-- Settles O27: the jump has no write of its own, and its target does not wrap. -/
theorem jumpV0AddsNoOffset : Obligations.JumpV0AddsNoOffset :=
  fun nnn => ⟨decode_jumpV0 nnn, fun s => ⟨_, rfl, indexedTarget_toNat s nnn, unchangedBut_applyEffect s _⟩⟩

/-! ## The skips -/

/-- A skip on equality moves `PC` alone (R28, R87). -/
theorem complete_skipIf_beq (s : State) (a b : Byte) :
    ∃ t, complete (skipIf (a == b)) s = .next t ∧ UnchangedBut [.pc] s t ∧
      t.pc = if a = b then s.pc + 4 else s.pc + 2 := by
  refine ⟨_, complete_eq _ s, unchangedBut_applyEffect s _, ?_⟩
  simp only [State.applyEffect_pc, nextPc_skipIf, beq_iff_eq]

/-- A skip on inequality moves `PC` alone (R28, R87). -/
theorem complete_skipIf_bne (s : State) (a b : Byte) :
    ∃ t, complete (skipIf (a != b)) s = .next t ∧ UnchangedBut [.pc] s t ∧
      t.pc = if a = b then s.pc + 2 else s.pc + 4 := by
  refine ⟨_, complete_eq _ s, unchangedBut_applyEffect s _, ?_⟩
  simp only [State.applyEffect_pc, nextPc_skipIf, bne_iff_ne, ne_eq, ite_not]

/-- Settles O28: each skip completes with the effect that its comparison chooses. -/
theorem skipsComparingWithAByte : Obligations.SkipsComparingWithAByte := fun x kk =>
  ⟨decode_skipEqImm x kk, decode_skipNeImm x kk, fun s =>
    ⟨complete_skipIf_beq s (s.reg x) kk, complete_skipIf_bne s (s.reg x) kk⟩⟩

/-- Settles O29: each skip completes with the effect that its comparison chooses, and a last nibble other than 0 leaves
the word without a row (D9). -/
theorem skipsComparingRegisters : Obligations.SkipsComparingRegisters := by
  refine fun x y => ⟨decode_skipEqReg x y 0, decode_skipNeReg x y 0, fun n hn => ⟨?_, ?_⟩, fun s => ⟨?_, ?_⟩⟩
  · rw [decode_skipEqReg, if_neg hn]
  · rw [decode_skipNeReg, if_neg hn]
  · exact complete_skipIf_beq s (s.reg x) (s.reg y)
  · exact complete_skipIf_bne s (s.reg x) (s.reg y)

end Sys2Proof.Machine
end

section
/-! Loads, arithmetic, logic, shifts and random (O30 to O36): what the two shared writes of 41_alu.md answer, the flag
values as numbers, and each instruction as one of those writes. -/

namespace Sys2Proof.Machine

/-! ## The two shared writes (R130) -/

/-- The frame of a counted draw. -/
theorem unchangedBut_countDraw (s : State) : UnchangedBut [.draws] s s.countDraw := by
  intro p hp
  cases p with
  | draws => exact absurd (List.mem_singleton_self _) hp
  | _ => rfl

/-- A register write completes with the value in the register, and keeps every other part but `PC`. -/
theorem writeReg_completes (x : Reg) (b : Byte) (s : State) :
    ∃ t, writeReg x b s = .next t ∧ t.reg x = b ∧ t.pc = s.pc + 2 ∧ UnchangedBut [.pc, .reg x] s t :=
  ⟨_, rfl, s.reg_setReg_same x b, rfl, unchangedBut_setReg s x b .advance⟩

/-- A flag and a result: the result is in its register whichever that is, and the flag in VF unless the result went there
(D11). -/
theorem writeFlagAndReg_completes (flag : Byte) (x : Reg) (b : Byte) (s : State) :
    ∃ t, writeFlagAndReg flag x b s = .next t ∧ t.reg x = b ∧ (x ≠ VF → t.reg VF = flag) ∧ t.pc = s.pc + 2 ∧
      UnchangedBut [.pc, .reg x, .reg VF] s t := by
  refine ⟨_, rfl, State.reg_setReg_same _ x b, fun hx => ?_, rfl, ?_⟩
  · rw [State.reg_applyEffect, State.reg_setReg_other _ b hx.symm, State.reg_setReg_same]
  · -- The flag write alone, as `applyEffect_self` says: a jump to the state's own `PC` changes nothing.
    have flagFrame : UnchangedBut [.pc, .reg VF] s (s.setReg VF flag) :=
      unchangedBut_setReg s VF flag (.jumpTo s.pc)
    exact (flagFrame.trans (unchangedBut_setReg _ x b .advance)).mono (by simp)

/-! ## The flag values as numbers (R21) -/

theorem ofBool_decide (p : Prop) [Decidable p] : Flags.ofBool (decide p) = if p then 1 else 0 := by
  simp only [Flags.ofBool, decide_eq_true_eq]

theorem ofBool_toNat (c : Bool) : (Flags.ofBool c).toNat = c.toNat := by
  cases c <;> rfl

/-- The bit shifted out to the right is the remainder of the halving (R139). -/
theorem shiftedOutLow_toNat (b : Byte) : (Flags.shiftedOutLow b).toNat = b.toNat % 2 := by
  rw [Flags.shiftedOutLow, ofBool_toNat, ← BitVec.testBit_toNat, Nat.toNat_testBit, pow_zero, Nat.div_one]

/-- The bit shifted out to the left is the overflow of the doubling (R141). -/
theorem shiftedOutHigh_toNat (b : Byte) : (Flags.shiftedOutHigh b).toNat = b.toNat / 128 := by
  rw [Flags.shiftedOutHigh, ofBool_toNat, ← BitVec.testBit_toNat, Nat.toNat_testBit]
  have := b.isLt
  omega

/-! ## Loads, and the operations without a flag -/

/-- Settles O30: each load is one register write. -/
theorem registerLoads : Obligations.RegisterLoads := fun x y kk =>
  ⟨decode_loadImm x kk, decode_alu x y 0x0#4, fun s =>
    ⟨writeReg_completes x kk s, writeReg_completes x (s.reg y) s⟩⟩

/-- Settles O31: one register write, of a sum of bytes. -/
theorem addByteWrapsWithoutCarry : Obligations.AddByteWrapsWithoutCarry := by
  refine fun x kk => ⟨decode_addImm x kk, fun s => ?_⟩
  obtain ⟨t, run, result, pc, frame⟩ := writeReg_completes x (s.reg x + kk) s
  exact ⟨t, run, result ▸ BitVec.toNat_add _ _, pc, frame⟩

/-- A register write whose value is known bit by bit. -/
theorem writeReg_bitwise (x : Reg) {b : Byte} {f : Nat → Bool} (bits : ∀ k, b.getLsbD k = f k) (s : State) :
    ∃ t, writeReg x b s = .next t ∧ t.pc = s.pc + 2 ∧ UnchangedBut [.pc, .reg x] s t ∧
      ∀ k, (t.reg x).getLsbD k = f k := by
  obtain ⟨t, run, result, pc, frame⟩ := writeReg_completes x b s
  exact ⟨t, run, pc, frame, fun k => result ▸ bits k⟩

/-- Settles O32: each is one register write, so VF is in the frame unless it is the destination (D12). -/
theorem logicIsBitwise : Obligations.LogicIsBitwise := fun x y =>
  ⟨decode_alu x y 0x1#4, decode_alu x y 0x2#4, decode_alu x y 0x3#4, fun s =>
    ⟨writeReg_bitwise x (fun _ => BitVec.getLsbD_or) s, writeReg_bitwise x (fun _ => BitVec.getLsbD_and) s,
      writeReg_bitwise x (fun _ => BitVec.getLsbD_xor) s⟩⟩

/-- Settles O36: the count rises, then one register write of the masked byte, which the count before it names (log entry
3). -/
theorem randomMasksAFreeByte : Obligations.RandomMasksAFreeByte := by
  refine fun x kk => ⟨decode_random x kk, fun s => ?_⟩
  obtain ⟨t, run, result, pc, frame⟩ := writeReg_completes x (Config.drawByte s.draws &&& kk) s.countDraw
  refine ⟨t, run, fun k => result ▸ BitVec.getLsbD_and, fun hk => ?_, frame .draws (by simp), pc, ?_⟩
  · rw [result, hk]; exact BitVec.and_zero
  · exact ((unchangedBut_countDraw s).trans frame).mono (by simp)

/-! ## The operations with a flag -/

/-- Settles O33: the flag and the sum are both computed from the old registers, and the sum is written last (D11). -/
theorem addSetsCarry : Obligations.AddSetsCarry := by
  refine fun x y => ⟨decode_alu x y 0x4#4, fun s => ?_⟩
  obtain ⟨t, run, result, flag, pc, frame⟩ :=
    writeFlagAndReg_completes (Flags.carry (s.reg x) (s.reg y)) x (s.reg x + s.reg y) s
  exact ⟨t, run, result ▸ BitVec.toNat_add _ _, fun hx => (flag hx).trans (ofBool_decide _), pc, frame⟩

/-- The difference of two bytes is the integer difference modulo 256. -/
theorem sub_toNat_eq_emod (a b : Byte) : ((a - b).toNat : Int) = (a.toNat - b.toNat : Int) % 256 := by
  rw [BitVec.toNat_sub]
  have := b.isLt
  omega

/-- A difference written with its no-borrow flag, whichever register is the first operand (C2). -/
theorem writeDifference_completes (a b : Byte) (x : Reg) (s : State) :
    ∃ t, writeFlagAndReg (Flags.noBorrow a b) x (a - b) s = .next t ∧
      ((t.reg x).toNat : Int) = (a.toNat - b.toNat : Int) % 256 ∧
      (x ≠ VF → t.reg VF = if b.toNat < a.toNat then 1 else 0) ∧
      t.pc = s.pc + 2 ∧ UnchangedBut [.pc, .reg x, .reg VF] s t := by
  obtain ⟨t, run, result, flag, pc, frame⟩ := writeFlagAndReg_completes (Flags.noBorrow a b) x (a - b) s
  exact ⟨t, run, result ▸ sub_toNat_eq_emod a b, fun hx => (flag hx).trans (ofBool_decide _), pc, frame⟩

/-- Settles O34: the two subtractions differ in the order of their operands. -/
theorem subtractionsSetNoBorrow : Obligations.SubtractionsSetNoBorrow := fun x y =>
  ⟨decode_alu x y 0x5#4, decode_alu x y 0x7#4, fun s =>
    ⟨writeDifference_completes (s.reg x) (s.reg y) x s, writeDifference_completes (s.reg y) (s.reg x) x s⟩⟩

/-- Settles O35: a shift by one is a halving or a doubling of the source, and its flag the bit that this loses. -/
theorem shiftsTakeTheirSourceFromVy : Obligations.ShiftsTakeTheirSourceFromVy := by
  refine fun x y => ⟨decode_alu x y 0x6#4, decode_alu x y 0xE#4, fun s => ⟨?_, ?_⟩⟩
  · obtain ⟨t, run, result, flag, pc, frame⟩ :=
      writeFlagAndReg_completes (Flags.shiftedOutLow (s.reg y)) x (s.reg y >>> 1) s
    have halved : (s.reg y >>> 1).toNat = (s.reg y).toNat / 2 := by
      rw [BitVec.toNat_ushiftRight, Nat.shiftRight_one]
    exact ⟨t, run, result ▸ halved, fun hx => flag hx ▸ shiftedOutLow_toNat _, pc, frame⟩
  · obtain ⟨t, run, result, flag, pc, frame⟩ :=
      writeFlagAndReg_completes (Flags.shiftedOutHigh (s.reg y)) x (s.reg y <<< 1) s
    have doubled : (s.reg y <<< 1).toNat = (s.reg y).toNat * 2 % 256 := by
      rw [BitVec.toNat_shiftLeft, Nat.shiftLeft_eq, pow_one]
    exact ⟨t, run, result ▸ doubled, fun hx => flag hx ▸ shiftedOutHigh_toNat _, pc, frame⟩

end Sys2Proof.Machine
end

section
/-! The index register and the memory transfers (O37 to O43): what a write of `I`, a store at `I` and a load from `I`
answer, each with its frame, and each instruction as one of these. -/

namespace Sys2Proof.Machine

/-! ## Listed bytes and registers -/

theorem byte_mem_bytesFrom {a n q : Nat} : Part.byte q ∈ bytesFrom a n ↔ a ≤ q ∧ q < a + n := by
  simp only [bytesFrom, List.mem_map, List.mem_range, Part.byte.injEq]
  constructor
  · rintro ⟨k, hk, rfl⟩
    omega
  · rintro ⟨low, high⟩
    exact ⟨q - a, by omega, by omega⟩

theorem reg_mem_regsThrough {x r : Reg} : Part.reg r ∈ regsThrough x ↔ r ≤ x := by
  simp [regsThrough]

/-! ## Frames of the three writes -/

theorem unchangedBut_setIndex (s : State) (a : Addr) : UnchangedBut [.index] s (s.setIndex a) := by
  intro p hp
  cases p with
  | index => exact absurd (List.mem_singleton_self _) hp
  | _ => rfl

theorem unchangedBut_writeBytes (s : State) (a : Nat) (bs : List Byte) :
    UnchangedBut (bytesFrom a bs.length) s (s.writeBytes a bs) := by
  intro p hp
  cases p with
  | byte q =>
    rw [byte_mem_bytesFrom] at hp
    exact s.readByte_writeBytes_outside a q bs (by omega)
  | _ => rfl

theorem unchangedBut_setRegsUpTo (s : State) (x : Reg) (f : Nat → Byte) :
    UnchangedBut (regsThrough x) s (s.setRegsUpTo x f) := by
  intro p hp
  cases p with
  | reg r =>
    rw [reg_mem_regsThrough] at hp
    exact (s.reg_setRegsUpTo x r f).trans (if_neg hp)
  | _ => rfl

/-- Advancing after a write adds `PC` to what the write's frame lists (R87). -/
theorem UnchangedBut.advance {ps : List Part} {s t : State} (h : UnchangedBut ps s t) :
    UnchangedBut (.pc :: ps) s (t.applyEffect .advance) :=
  (h.trans (unchangedBut_applyEffect t .advance)).mono (by simp)

/-! ## The three writes, completed -/

theorem setIndex_completes (a : Addr) (s : State) :
    ∃ t, complete .advance (s.setIndex a) = .next t ∧ t.i = a ∧ t.pc = s.pc + 2 ∧ UnchangedBut [.pc, .index] s t :=
  ⟨_, rfl, rfl, rfl, (unchangedBut_setIndex s a).advance⟩

/-- A store in range puts each byte at its place from `I` up, and keeps every other part but `PC` (R160). -/
theorem storeAtIndex_completes (bs : List Byte) {s : State} (inside : s.dataAddress + bs.length ≤ memSize) :
    ∃ t, storeAtIndex bs s = .next t ∧
      (∀ k (hk : k < bs.length), t.readByte (s.dataAddress + k) = bs[k]) ∧
      t.pc = s.pc + 2 ∧ UnchangedBut (.pc :: bytesFrom s.dataAddress bs.length) s t :=
  ⟨_, storeAtIndex_inRange s bs inside, fun k hk => s.readByte_writeBytes_inside _ k bs hk, rfl,
    (unchangedBut_writeBytes s _ bs).advance⟩

/-! ## Writes of the index register -/

/-- Settles O37: the immediate itself is written. -/
theorem loadIndexAddsNoOffset : Obligations.LoadIndexAddsNoOffset :=
  fun nnn => ⟨decode_loadIndex nnn, setIndex_completes nnn⟩

/-- Settles O38: one write of `I`, of a 12-bit sum in which the byte keeps its value (D28). -/
theorem addIndexWrapsAtTwelveBits : Obligations.AddIndexWrapsAtTwelveBits := by
  refine fun x => ⟨decode_misc x 0x1E#8, fun s => ?_⟩
  obtain ⟨t, run, index, pc, frame⟩ := setIndex_completes (s.i + (s.reg x).setWidth 12) s
  have widened : ((s.reg x).setWidth 12).toNat = (s.reg x).toNat :=
    BitVec.toNat_setWidth_of_le (by decide)
  refine ⟨t, run, ?_, pc, frame⟩
  rw [index, BitVec.toNat_add, widened]

/-- The font lies below 0x200 (R6), so a digit's glyph address does not wrap. -/
theorem glyphAddress_toNat {s : State} (font : s.cfg.ok) {v : Byte} (digit : v.toNat ≤ 15) :
    (s.glyphAddress v).toNat = s.cfg.fontBase.toNat + 5 * v.toNat := by
  unfold Config.ok at font
  rw [State.glyphAddress, BitVec.toNat_ofNat, Nat.mod_eq_of_lt (by omega)]

/-- Settles O39: a digit writes its glyph's address to `I`, and another value is a fatal error. -/
theorem loadFontPointsAtTheGlyph : Obligations.LoadFontPointsAtTheGlyph := by
  refine fun x => ⟨decode_misc x 0x29#8, fun s => ⟨fun font digit => ?_, exec_loadFont_above⟩⟩
  obtain ⟨t, run, index, pc, frame⟩ := setIndex_completes (s.glyphAddress (s.reg x)) s
  refine ⟨t, (exec_loadFont_digit (by omega)).trans run, ?_, pc, frame⟩
  rw [index, glyphAddress_toNat font digit]

/-! ## Memory transfers -/

/-- Settles O40: a store of the three digits, each of which fits a byte. -/
theorem storeBcdWritesThreeDigits : Obligations.StoreBcdWritesThreeDigits := by
  refine fun x => ⟨decode_misc x 0x33#8, fun s inside => ?_⟩
  obtain ⟨t, run, stored, pc, frame⟩ := storeAtIndex_completes (decimalDigits (s.reg x)) (s := s)
    (by rw [length_decimalDigits]; unfold memSize; omega)
  have bound := (s.reg x).isLt
  refine ⟨t, run, ?_, ?_, ?_, pc, frame⟩
  · exact (congrArg BitVec.toNat (stored 0 (by simp))).trans (Nat.mod_eq_of_lt (by omega))
  · exact (congrArg BitVec.toNat (stored 1 (by simp))).trans (Nat.mod_eq_of_lt (by omega))
  · exact (congrArg BitVec.toNat (stored 2 (by simp))).trans (Nat.mod_eq_of_lt (by omega))

/-- Settles O41: a store of the registers through Vx, in their order. -/
theorem storeRegsWritesThroughVx : Obligations.StoreRegsWritesThroughVx := by
  refine fun x => ⟨decode_misc x 0x55#8, fun s inside => ?_⟩
  have count := s.length_regsUpTo x
  obtain ⟨t, run, stored, pc, frame⟩ := storeAtIndex_completes (s.regsUpTo x) (s := s)
    (by rw [count]; unfold memSize; omega)
  refine ⟨t, run, fun k hk => ?_, pc, count ▸ frame⟩
  have listed : k.val < (s.regsUpTo x).length := count ▸ Nat.lt_succ_of_le hk
  rw [stored k.val listed, s.getElem_regsUpTo x k listed]

/-- Settles O42: in range the bytes are read from the state before the load, one for each register through Vx. -/
theorem loadRegsReadsThroughVx : Obligations.LoadRegsReadsThroughVx := by
  refine fun x => ⟨decode_misc x 0x65#8, fun s inside => ?_⟩
  have fits : s.dataAddress + (x.val + 1) ≤ memSize := by unfold memSize; omega
  refine ⟨_, guardRange_inRange s _ (.inr fits), fun k hk => ?_, rfl,
    (unchangedBut_setRegsUpTo s x _).advance⟩
  exact (s.reg_setRegsUpTo x k _).trans (if_pos hk)

/-- Settles O43: the load reads from the address the store wrote to, since neither instruction moves `I`, and its frame
keeps the registers above Vx and every byte (O41, O42). -/
theorem storeThenLoadRestoresRegisters : Obligations.StoreThenLoadRestoresRegisters := by
  intro x s t t' inside store index_same bytes_same
  obtain ⟨-, storeRegs⟩ := storeRegsWritesThroughVx x
  obtain ⟨-, loadRegs⟩ := loadRegsReadsThroughVx x
  obtain ⟨t₁, run, stored, -, storeFrame⟩ := storeRegs s inside
  obtain rfl : t₁ = t := Host.Outcome.next.inj (run.symm.trans store)
  have index_back : t'.i = s.i := index_same.trans (storeFrame .index (by simp [bytesFrom]))
  have address_back : t'.dataAddress = s.dataAddress := congrArg BitVec.toNat index_back
  obtain ⟨u, load, loaded, -, loadFrame⟩ := loadRegs t' (address_back ▸ inside)
  refine ⟨u, load, fun r hr => ?_, fun r hr => ?_, ?_, fun a => ?_⟩
  · rw [loaded r hr, address_back, bytes_same, stored r hr]
  · exact loadFrame (.reg r) (by simp [reg_mem_regsThrough, hr])
  · exact (loadFrame .index (by simp [regsThrough])).trans index_back
  · exact (loadFrame (.byte a) (by simp [regsThrough])).trans (bytes_same a)

end Sys2Proof.Machine
end

section
/-! The Display Surface (O45 to O49): the frames of its writes, a sprite drawn once and drawn again, and the pixel that a
point access reads or writes. -/

namespace Sys2Proof.Machine

/-! ## Frames of the screen's writes -/

theorem row_mem_screenRows (r : Fin 32) : Part.row r ∈ screenRows := by
  simp [screenRows]

theorem unchangedBut_setFb (s : State) (fb : Vector PixelRow 32) : UnchangedBut screenRows s (s.setFb fb) := by
  intro p hp
  cases p with
  | row r => exact absurd (row_mem_screenRows r) hp
  | _ => rfl

theorem unchangedBut_withPixel (s : State) (r : Fin 32) (c : Fin 64) (lit : Bool) :
    UnchangedBut [.row r] s (s.withPixel r c lit) := by
  intro p hp
  cases p with
  | row q =>
    have other : r.val ≠ q.val := fun hq => hp (by simp [Fin.ext hq])
    exact Vector.getElem_set_ne r.isLt q.isLt other
  | _ => rfl

/-! ## Clearing the screen (R191) -/

/-- Settles O45: the one write is a screen of dark rows, and the frame of a screen write holds VF and the snapshot. -/
theorem clearScreenDarkensEveryRow : Obligations.ClearScreenDarkensEveryRow :=
  ⟨by decide, fun s =>
    ⟨_, rfl, fun r => Vector.getElem_replicate r.isLt, rfl, (unchangedBut_setFb s _).advance⟩⟩

/-! ## Placement (R193, R194) -/

theorem getLsbD_place_wrapped (c : Config) (b cx : Byte) {j : Nat} (h : 56 < cx.toNat) (hw : c.wrapX = true)
    (hj : j < 64) : (place c b cx).getLsbD j = (b.setWidth 64).getLsbD ((j + (cx.toNat - 56)) % 64) := by
  rw [place_wrapped c b cx h hw, getLsbD_rotateRight_row _ _ j (Nat.mod_lt _ (by decide)) hj, Nat.add_mod_mod]

theorem place_clipped_toNat (c : Config) (b cx : Byte) (h : 56 < cx.toNat) (hw : c.wrapX = false) :
    (place c b cx).toNat = b.toNat / 2 ^ (cx.toNat - 56) := by
  rw [place_clipped c b cx h hw, BitVec.toNat_ushiftRight, BitVec.toNat_setWidth_of_le (by decide),
    Nat.shiftRight_eq_div_pow]

/-- A sprite row goes to any row of the screen that it falls on, by its number. -/
theorem targetRow_map_val {c : Config} {t q : Nat} (hq : q < 32) (h : fallsOn c.wrapY 32 t q) :
    (targetRow c t).map (·.val) = some q := by
  rw [(targetRow_eq_some c t ⟨q, hq⟩).2 h, Option.map_some]

/-- Below the screen, without wrapping, a sprite row falls on no row and is dropped. -/
theorem targetRow_eq_none {c : Config} {t : Nat} (h : 31 < t) (hw : c.wrapY = false) : targetRow c t = none := by
  refine Option.eq_none_iff_forall_ne_some.2 fun r hr => ?_
  rcases (targetRow_eq_some c t r).1 hr with same | ⟨wraps, -⟩
  · omega
  · exact Bool.false_ne_true (hw.symm.trans wraps)

/-- Settles O47: a byte is shifted left up to column 56 and rotated or shifted right past it, and a sprite row goes to the
row it falls on. -/
theorem placementFollowsTheShiftAmount : Obligations.PlacementFollowsTheShiftAmount := by
  refine fun c b cx => ⟨place_left c b cx, fun h hw j hj => getLsbD_place_wrapped c b cx h hw hj,
    place_clipped_toNat c b cx, fun t => ⟨fun inside => ?_, fun _ hw => ?_, targetRow_eq_none⟩⟩
  · exact targetRow_map_val (by omega) (.inl rfl)
  · exact targetRow_map_val (Nat.mod_lt t (by decide)) (.inr ⟨hw, rfl⟩)

/-! ## A sprite drawn once (R192 to R197) -/

/-- Settles O46: the composed screen and its collision, pixel by pixel, are what `draw` writes. -/
theorem drawFlipsTheCoveredPixels : Obligations.DrawFlipsTheCoveredPixels := by
  refine fun x y n hn => ⟨decode_draw x y hn, fun s inside => ?_⟩
  have flag := composeSprite_flag s (s.reg x) (s.reg y) hn
  refine ⟨_, exec_draw_inRange x y (.inr inside), composeSprite_pixel s (s.reg x) (s.reg y) hn, fun hit => ?_,
    fun miss => ?_, rfl, ?_⟩
  · rw [State.reg_applyEffect, State.reg_setReg_same, flag.2 hit]; rfl
  · have clear := Bool.eq_false_iff.2 fun collided =>
      let ⟨r, c, lit, covered⟩ := flag.1 collided
      miss r c lit covered
    rw [State.reg_applyEffect, State.reg_setReg_same, clear]; rfl
  · exact ((unchangedBut_setFb s _).trans (unchangedBut_setReg _ VF _ .advance)).mono (by simp)

/-! ## A sprite drawn twice (R197) -/

/-- Where a sprite falls depends on `I`, the bytes and the wrap flags alone. -/
theorem spriteCovers_congr {s t : State} (index : t.i = s.i) (config : t.cfg = s.cfg)
    (bytes : ∀ a, t.readByte a = s.readByte a) (cx cy : Byte) (n : Nat) (r : Fin 32) (c : Fin 64) :
    SpriteCovers t cx cy n r c ↔ SpriteCovers s cx cy n r c := by
  simp only [SpriteCovers, State.dataAddress, index, config, bytes]

/-- A screen is its pixels (R30). -/
theorem fb_eq_of_pixel_iff {s t : State} (h : ∀ r c, t.pixel r c = true ↔ s.pixel r c = true) : t.fb = s.fb := by
  refine Vector.ext fun r hr => BitVec.eq_of_getLsbD_eq fun k hk => ?_
  have column : 63 - (63 - k) = k := by omega
  have bit := Bool.eq_iff_iff.2 (h ⟨r, hr⟩ ⟨63 - k, by omega⟩)
  simpa only [State.pixel, column] using bit

/-- Settles O48: the first draw's frame keeps where the sprite falls, so the second flips the same pixels back, and its flag
is O46's on the screen that the first left. -/
theorem drawingTwiceRestoresTheScreen : Obligations.DrawingTwiceRestoresTheScreen := by
  intro x y n s t u hn _ inside first xSame ySame second
  obtain ⟨-, draw⟩ := drawFlipsTheCoveredPixels x y n hn
  obtain ⟨t', run, flipped, -, -, -, frame⟩ := draw s inside
  obtain rfl := Host.Outcome.next.inj (run.symm.trans first)
  have index : t'.i = s.i := frame .index (by simp [screenRows])
  have config : t'.cfg = s.cfg := frame .config (by simp [screenRows])
  have bytes : ∀ a, t'.readByte a = s.readByte a := fun a => frame (.byte a) (by simp [screenRows])
  have address : t'.dataAddress = s.dataAddress := congrArg BitVec.toNat index
  obtain ⟨u', run', flippedBack, hit, miss, -, -⟩ := draw t' (address ▸ inside)
  obtain rfl := Host.Outcome.next.inj (run'.symm.trans second)
  simp only [xSame, ySame, spriteCovers_congr index config bytes] at flippedBack hit miss
  refine ⟨fb_eq_of_pixel_iff fun r c => ?_, fun flag => ?_, hit⟩
  · rw [flippedBack, flipped]; tauto
  · by_contra none_lit
    have zero : u'.reg VF = 0 := miss fun r c lit covered => none_lit ⟨r, c, lit, covered⟩
    rw [zero] at flag
    exact absurd flag (by decide)

/-! ## Point-level access (R198, R199) -/

theorem pixel_withPixel (s : State) (r r' : Fin 32) (c c' : Fin 64) (lit : Bool) :
    (s.withPixel r c lit).pixel r' c' = if (r', c') = (r, c) then lit else s.pixel r' c' := by
  simp only [State.pixel, State.withPixel, State.setFb_fb, Prod.mk.injEq]
  by_cases hr : r' = r
  · subst hr
    rw [Vector.getElem_set_self, getLsbD_setPixelInRow]
    simp only [true_and]
  · rw [Vector.getElem_set_ne _ _ fun h => hr (Fin.ext h.symm), if_neg fun h => hr h.1]

/-- Settles O49: on the grid a get leaves the block and a set writes one pixel of one row; off the grid both raise the fatal
error that records the point. -/
theorem pointAccessReadsAndWritesOnePixel : Obligations.PointAccessReadsAndWritesOnePixel := by
  refine fun h running => ⟨fun r c => ⟨?_, fun lit => ⟨h.block.withPixel r c lit, ?_, ?_, ?_, ?_⟩⟩,
    fun r c off op hop => ?_⟩
  · rw [apply_running running]; exact point_inside r c _
  · rw [apply_running running]; exact point_inside r c _
  · rw [pixel_withPixel, if_pos rfl]
  · intro r' c' other
    rw [pixel_withPixel, if_neg other]
  · exact unchangedBut_withPixel h.block r c lit
  · rw [apply_running running]
    rcases hop with rfl | ⟨lit, rfl⟩ <;> exact point_outside _ off

end Sys2Proof.Machine
end

section
/-! The timers and the keys (O50 to O52): a skip chosen by the key query, the register write of the key wait, and the moves
of a byte between a register and a timer. -/

namespace Sys2Proof.Machine

/-! ## Key skips (R220 to R222) -/

/-- A value above 15 names no key (R220, D15). -/
theorem pressed_iff (s : State) (b : Byte) :
    s.pressed b = true ↔ b.toNat ≤ 15 ∧ s.keys.getLsbD b.toNat = true := by
  rw [State.pressed, Bool.and_eq_true, decide_eq_true_iff]

/-- A conditional skip moves `PC` alone (R28, R87). -/
theorem complete_skipIf (s : State) (c : Bool) :
    ∃ t, complete (skipIf c) s = .next t ∧ UnchangedBut [.pc] s t ∧ t.pc = if c = true then s.pc + 4 else s.pc + 2 :=
  ⟨_, complete_eq _ s, unchangedBut_applyEffect s _, nextPc_skipIf s.pc c⟩

/-- Settles O50: each skip completes with the effect that the key query, or its negation, chooses. -/
theorem keySkipsFollowTheMask : Obligations.KeySkipsFollowTheMask := by
  refine fun x => ⟨decode_keySkip x 0x9E#8, decode_keySkip x 0xA1#8, fun s => ?_⟩
  simp only [← pressed_iff]
  refine ⟨complete_skipIf s (s.pressed (s.reg x)), ?_⟩
  obtain ⟨t, run, frame, pc⟩ := complete_skipIf s (!s.pressed (s.reg x))
  refine ⟨t, run, frame, ?_⟩
  rw [pc]
  cases s.pressed (s.reg x) <;> rfl

/-! ## The key wait (R224) -/

/-- Settles O51: a zero mask has no least pressed key, and under any other mask the wait is one register write of the least
pressed key, which fits a byte. -/
theorem keyWaitSpinsUntilAKeyIsPressed : Obligations.KeyWaitSpinsUntilAKeyIsPressed := by
  refine fun x => ⟨decode_misc x 0x0A#8, fun s => ⟨fun idle => ?_, fun k pressed least => ?_⟩⟩
  · exact exec_waitKey_none x (leastPressed_eq_none.2 idle)
  · have found : s.leastPressed = some k.val :=
      leastPressed_eq_some.2 ⟨k.isLt, pressed, fun j hj => least ⟨j, hj.trans k.isLt⟩ hj⟩
    obtain ⟨t, run, result, pc, frame⟩ := writeReg_completes x (BitVec.ofNat 8 k.val) s
    have fits : (BitVec.ofNat 8 k.val).toNat = k.val := Nat.mod_eq_of_lt (by omega)
    exact ⟨t, (exec_waitKey_some x found).trans run, result ▸ fits, pc, frame⟩

/-! ## Timer moves (R223, R225, R226) -/

theorem unchangedBut_setDT (s : State) (b : Byte) : UnchangedBut [.delay] s (s.setDT b) := by
  intro p hp
  cases p with
  | delay => exact absurd (List.mem_singleton_self _) hp
  | _ => rfl

theorem unchangedBut_setST (s : State) (b : Byte) : UnchangedBut [.sound] s (s.setST b) := by
  intro p hp
  cases p with
  | sound => exact absurd (List.mem_singleton_self _) hp
  | _ => rfl

/-- Settles O52: a read of the delay timer is one register write, and the two others are one timer write each. -/
theorem timerLoadsMoveOneByte : Obligations.TimerLoadsMoveOneByte := by
  refine fun x => ⟨decode_misc x 0x07#8, decode_misc x 0x15#8, decode_misc x 0x18#8, fun s => ⟨?_, ?_, ?_⟩⟩
  · exact writeReg_completes x s.dt s
  · exact ⟨_, rfl, rfl, rfl, (unchangedBut_setDT s (s.reg x)).advance⟩
  · exact ⟨_, rfl, rfl, rfl, (unchangedBut_setST s (s.reg x)).advance⟩

end Sys2Proof.Machine
end

section
/-! What the host's operations can leave in the block, and the invariant through every run of them (O15). -/

namespace Sys2Proof.Machine

/-! ## The key mask -/

/-- The mask of key `k` alone (R33, R273). -/
theorem getLsbD_keyMask (j k : Fin 16) : (1#16 <<< k.val).getLsbD j.val = decide (j.val = k.val) := by
  rw [← BitVec.twoPow_eq, BitVec.getLsbD_twoPow, decide_eq_true k.isLt, Bool.true_and]
  exact decide_eq_decide.2 eq_comm

theorem getLsbD_setPressed (s : State) (j k : Fin 16) :
    (s.setPressed k).keys.getLsbD j.val = decide (j.val = k.val) := getLsbD_keyMask j k

theorem getLsbD_release (s : State) (j k : Fin 16) :
    (s.release k).keys.getLsbD j.val = (s.keys.getLsbD j.val && decide (j.val ≠ k.val)) := by
  simp only [State.release, State.setKeys_keys, BitVec.getLsbD_and, BitVec.getLsbD_not, getLsbD_keyMask, j.isLt,
    decide_true, Bool.true_and, decide_not]

/-! ## What an operation can leave -/

section Operations

variable {h h' : Session} {reply : Reply}

theorem key_inside {k : Nat} (lt : k < 16) (op : Fin 16 → State) :
    h.key k op = .next ({ h with block := op ⟨k, lt⟩ }, .done) := dif_pos lt

/-- An index above 15 has no move (R273, R278). -/
theorem key_outside {k : Nat} (le : 16 ≤ k) (op : Fin 16 → State) : h.key k op = .fault (.noSuchKey k) :=
  dif_neg (Nat.not_lt.2 le)

/-- A load that has a move copies an image that fits, or leaves the block (R271). -/
theorem load_moved {bytes : List Byte} (moved : h.load bytes = .next (h', reply)) :
    (bytes.length ≤ programMax ∧ h'.block = h.block.loadImage bytes) ∨
      (programMax < bytes.length ∧ h'.block = h.block) := by
  by_cases late : h.cycled = true ∨ h.loaded = true
  · rw [load_tooLate bytes late] at moved; cases moved
  · obtain ⟨hc, hl⟩ : h.cycled = false ∧ h.loaded = false := by simpa using late
    by_cases fits : bytes.length ≤ programMax
    · rw [load_fits hc hl fits] at moved; cases moved; exact .inl ⟨fits, rfl⟩
    · have large : programMax < bytes.length := by omega
      rw [load_tooLarge hc hl large] at moved; cases moved; exact .inr ⟨large, rfl⟩

theorem key_moved {k : Nat} {op : Fin 16 → State} (moved : h.key k op = .next (h', reply)) :
    ∃ lt : k < 16, h'.block = op ⟨k, lt⟩ := by
  by_cases lt : k < 16
  · rw [key_inside lt] at moved; cases moved; exact ⟨lt, rfl⟩
  · rw [key_outside (by omega)] at moved; cases moved

/-- A point is a pixel of the grid, or the operation is a fatal error (R198, R199, R254). -/
theorem point_moved {r c : Int} {op : Fin 32 → Fin 64 → State × Reply} (moved : h.point r c op = .next (h', reply)) :
    (∃ r' c', gridPoint r c = some (r', c') ∧ h'.block = (op r' c').1) ∨
      (gridPoint r c = none ∧ h'.block = h.block.raiseFatal (.pixelOutOfBounds r c)) := by
  unfold Session.point at moved
  cases on : gridPoint r c with
  | some p => rw [on] at moved; cases moved; exact .inl ⟨p.1, p.2, rfl, rfl⟩
  | none => rw [on] at moved; cases moved; exact .inr ⟨rfl, rfl⟩

end Operations

/-- The states that an operation of the host can leave in a running block `s` (R271 to R276). -/
inductive OpLeaves (s : State) : HostOp → State → Prop
  | load (bytes : List Byte) (fits : bytes.length ≤ programMax) : OpLeaves s (.load bytes) (s.loadImage bytes)
  | tooLarge (bytes : List Byte) (large : programMax < bytes.length) : OpLeaves s (.load bytes) s
  | cycle {r : Byte} {t : State} (run : s.cycle r = .next t) : OpLeaves s (.cycle r) t
  | tick : OpLeaves s .tick s.tick
  | setPressed {k : Nat} (lt : k < 16) : OpLeaves s (.setPressed k) (s.setPressed ⟨k, lt⟩)
  | release {k : Nat} (lt : k < 16) : OpLeaves s (.release k) (s.release ⟨k, lt⟩)
  | readFrame : OpLeaves s .readFrame s.afterFrameRead
  | getPixel {r c : Int} {p : Fin 32 × Fin 64} (on : gridPoint r c = some p) : OpLeaves s (.getPixel r c) s
  | getOffGrid {r c : Int} (off : gridPoint r c = none) :
      OpLeaves s (.getPixel r c) (s.raiseFatal (.pixelOutOfBounds r c))
  | setPixel {r c : Int} {r' : Fin 32} {c' : Fin 64} (lit : Bool) (on : gridPoint r c = some (r', c')) :
      OpLeaves s (.setPixel r c lit) (s.withPixel r' c' lit)
  | setOffGrid {r c : Int} (lit : Bool) (off : gridPoint r c = none) :
      OpLeaves s (.setPixel r c lit) (s.raiseFatal (.pixelOutOfBounds r c))

/-- Everything an operation that has a move can have left in the block. -/
theorem apply_leaves {h h' : Session} {op : HostOp} {reply : Reply} (moved : h.apply op = .next (h', reply)) :
    OpLeaves h.block op h'.block := by
  cases hs : h.block.status with
  | fatal k => rw [apply_fatal hs] at moved; cases moved
  | running =>
    rw [apply_running hs] at moved
    cases op with
    | load bytes =>
      rcases load_moved moved with ⟨fits, he⟩ | ⟨large, he⟩
      · exact he ▸ .load bytes fits
      · exact he ▸ .tooLarge bytes large
    | cycle r =>
      obtain ⟨t, run⟩ := cycle_answers_next r hs
      obtain rfl : h' = _ := (Prod.mk.inj (Host.Outcome.next.inj (moved.symm.trans (session_cycle_of_next run)))).1
      exact .cycle run
    | tick => cases moved; exact .tick
    | setPressed k =>
      obtain ⟨lt, he⟩ := key_moved moved
      exact he ▸ .setPressed lt
    | release k =>
      obtain ⟨lt, he⟩ := key_moved moved
      exact he ▸ .release lt
    | readFrame => cases moved; exact .readFrame
    | getPixel r c =>
      rcases point_moved moved with ⟨r', c', on, he⟩ | ⟨off, he⟩
      · exact he ▸ .getPixel on
      · exact he ▸ .getOffGrid off
    | setPixel r c lit =>
      rcases point_moved moved with ⟨r', c', on, he⟩ | ⟨off, he⟩
      · exact he ▸ .setPixel lit on
      · exact he ▸ .setOffGrid lit off

/-! ## The invariant through one operation -/

/-- On a given byte `random` is a load of the masked byte, so every instruction there is some instruction that takes no
byte (R86, R142). -/
theorem execOn_eq_exec (r : Byte) (i : Instr) (s : State) : ∃ j, execOn r i s = exec j s := by
  by_cases h : ∃ x kk, i = .random x kk
  · obtain ⟨x, kk, rfl⟩ := h
    exact ⟨.loadImm x (r &&& kk), rfl⟩
  · exact ⟨i, execOn_other r s fun x kk hi => h ⟨x, kk, hi⟩⟩

/-- A cycle keeps the invariant whatever byte it is given (R272). -/
theorem State.Inv.cycle {s t : State} {r : Byte} (hs : s.Inv) (run : s.cycle r = .next t) : t.Inv := by
  obtain ⟨-, ⟨hpc, i, -, hi⟩ | ⟨-, -, rfl⟩ | ⟨-, rfl⟩⟩ := cycle_cases run
  · obtain ⟨j, hj⟩ := execOn_eq_exec r i s
    rcases exec_cases (hj.symm.trans hi) with ⟨k, -, rfl⟩ | ⟨e, u, hc, rfl⟩
    · exact hs.raiseFatal k
    · exact hc.inv hpc hs
  · exact hs.raiseFatal _
  · exact hs.raiseFatal _

/-- The invariant reads these five parts alone. -/
theorem State.Inv.congr {s t : State} (hs : s.Inv) (mem : t.mem = s.mem) (cfg : t.cfg = s.cfg) (pc : t.pc = s.pc)
    (stack : t.stack = s.stack) (keys : t.keys = s.keys) : t.Inv where
  memory := by rw [mem, cfg]; exact hs.memory
  font := by rw [cfg]; exact hs.font
  pc := by rw [pc]; exact hs.pc
  slots := by rw [stack]; exact hs.slots
  oneKey := by rw [keys]; exact hs.oneKey

/-- An image of at most 3584 bytes ends at the memory's end (R271). -/
theorem State.Inv.loadImage {s : State} (hs : s.Inv) {bytes : List Byte} (fits : bytes.length ≤ programMax) :
    (s.loadImage bytes).Inv :=
  { hs with memory := Memory.wf_writeBytes bytes hs.memory (Nat.add_le_add_left fits programBase) }

theorem State.Inv.setPressed {s : State} (hs : s.Inv) (k : Fin 16) : (s.setPressed k).Inv :=
  { hs with
    oneKey := fun i j hi hj => by
      rw [getLsbD_setPressed, decide_eq_true_eq] at hi hj
      exact Fin.ext (hi.trans hj.symm) }

/-- A key pressed after a release was pressed before it. -/
theorem State.Inv.release {s : State} (hs : s.Inv) (k : Fin 16) : (s.release k).Inv :=
  { hs with
    oneKey := fun i j hi hj => by
      rw [getLsbD_release, Bool.and_eq_true] at hi hj
      exact hs.oneKey i j hi.1 hj.1 }

theorem State.Inv.afterFrameRead {s : State} (hs : s.Inv) : s.afterFrameRead.Inv := by
  unfold State.afterFrameRead
  split
  · exact hs.congr rfl rfl rfl rfl rfl
  · exact hs

theorem OpLeaves.inv {s t : State} {op : HostOp} (left : OpLeaves s op t) (hs : s.Inv) : t.Inv := by
  cases left with
  | load _ fits => exact hs.loadImage fits
  | cycle run => exact hs.cycle run
  | setPressed => exact hs.setPressed _
  | release => exact hs.release _
  | readFrame => exact hs.afterFrameRead
  | tooLarge | getPixel => exact hs
  | tick | setPixel => exact hs.congr rfl rfl rfl rfl rfl
  | getOffGrid | setOffGrid => exact hs.raiseFatal _

/-! ## Runs of operations -/

/-- What every operation keeps of a session, every run keeps (R277). -/
theorem run_keeps {P : Session → Prop}
    (keeps : ∀ {h h' : Session} {op : HostOp} {reply : Reply}, P h → h.apply op = .next (h', reply) → P h')
    {ops : List HostOp} {h h' : Session} (start : P h) (run : h.run ops = .next h') : P h' := by
  induction ops generalizing h with
  | nil => cases run; exact start
  | cons op ops ih =>
    rw [Session.run] at run
    cases moved : h.apply op with
    | next answer =>
      rw [moved] at run
      exact ih (keeps start moved) run
    | fault f => rw [moved] at run; cases run
    | refused r => rw [moved] at run; cases run

/-- Settles O15: each operation leaves one of a few states in the block, each of which meets the invariant, and a run keeps
what every operation keeps. -/
theorem hostRunsKeepTheInvariant : Obligations.HostRunsKeepTheInvariant :=
  fun _ _ _ hs run => run_keeps (P := fun h => h.block.Inv) (fun inv moved => (apply_leaves moved).inv inv) hs run

end Sys2Proof.Machine
end

section
/-! The fatal errors: precise (O10), each raised by its instructions alone (O12), the stack's bounds (O24); and the halted
states, which are no fatal errors (O58). -/

namespace Sys2Proof.Machine

theorem Completes.status_eq {s u : State} {i : Instr} {e : PcEffect} (h : Completes s i e u) : u.status = s.status := by
  cases h <;> rfl

/-- Settles O10: a step raises a fatal error and changes the status alone, or it completes an instruction, which leaves the
status running. -/
theorem fatalErrorsArePrecise : Obligations.FatalErrorsArePrecise := by
  intro s t k running run fatal
  rcases step_raised_or_completed run with ⟨k', rfl⟩ | ⟨-, i, e, u, hc, rfl⟩
  · cases fatal; rfl
  · rw [State.applyEffect_status, hc.status_eq, running] at fatal
    cases fatal

/-! ## Which instruction raises which kind -/

/-- From a running state, an instruction's answer is fatal exactly when the instruction raises that kind. -/
theorem status_fatal_iff_raises {i : Instr} {s t : State} {k : FatalKind} (running : s.status = .running)
    (run : exec i s = .next t) : t.status = .fatal k ↔ Raises s i k := by
  constructor
  · intro fatal
    rcases exec_cases run with ⟨k', raised, rfl⟩ | ⟨e, u, hc, rfl⟩
    · cases fatal; exact raised
    · rw [State.applyEffect_status, hc.status_eq, running] at fatal
      cases fatal
  · intro raised
    obtain rfl := Host.Outcome.next.inj (raised.exec_eq.symm.trans run)
    rfl

section Kinds

variable {s : State} {i : Instr}

theorem raises_stackOverflow_iff : Raises s i .stackOverflow ↔ s.sp.val = 16 ∧ ∃ nnn, i = .call nnn := by
  constructor
  · rintro ⟨nnn, full⟩
    exact ⟨full, nnn, rfl⟩
  · rintro ⟨full, nnn, rfl⟩
    exact .call nnn full

theorem raises_stackUnderflow_iff : Raises s i .stackUnderflow ↔ s.sp.val = 0 ∧ i = .ret := by
  constructor
  · intro raised
    cases raised with
    | ret empty => exact ⟨empty, rfl⟩
  · rintro ⟨empty, rfl⟩
    exact .ret empty

theorem raises_invalidCharacter_iff {b : Byte} :
    Raises s i (.invalidCharacter b) ↔ 15 < b.toNat ∧ ∃ x, i = .loadFont x ∧ s.reg x = b := by
  constructor
  · intro raised
    cases raised with
    | loadFont x noDigit => exact ⟨noDigit, x, rfl, rfl⟩
  · rintro ⟨noDigit, x, rfl, rfl⟩
    exact .loadFont x noDigit

/-- The four accesses from `I`, each past memory when its last byte lies above 0xFFF. -/
theorem raises_memoryOutOfBounds_iff {a : Nat} :
    Raises s i (.memoryOutOfBounds a) ↔ a = 0x1000 ∧
      ((∃ x y n, i = .draw x y n ∧ 0 < n ∧ 0xFFF < s.dataAddress + n - 1) ∨
        (∃ x, i = .storeBcd x ∧ 0xFFF < s.dataAddress + 2) ∨
        ∃ x : Reg, (i = .storeRegs x ∨ i = .loadRegs x) ∧ 0xFFF < s.dataAddress + x.val) := by
  have size : memSize = 0x1000 := rfl
  constructor
  · intro raised
    cases raised with
    | draw x y n pos past => exact ⟨rfl, .inl ⟨x, y, n, rfl, pos, by omega⟩⟩
    | loadRegs x past => exact ⟨rfl, .inr (.inr ⟨x, .inr rfl, by omega⟩)⟩
    | store hi past =>
      cases hi with
      | storeBcd x =>
        rw [length_decimalDigits] at past
        exact ⟨rfl, .inr (.inl ⟨x, rfl, by omega⟩)⟩
      | storeRegs x =>
        rw [State.length_regsUpTo] at past
        exact ⟨rfl, .inr (.inr ⟨x, .inl rfl, by omega⟩)⟩
  · rintro ⟨rfl, ⟨x, y, n, rfl, pos, past⟩ | ⟨x, rfl, past⟩ | ⟨x, rfl | rfl, past⟩⟩
    · exact .draw x y n pos (by omega)
    · exact .store (.storeBcd x) (by rw [length_decimalDigits]; omega)
    · exact .store (.storeRegs x) (by rw [State.length_regsUpTo]; omega)
    · exact .loadRegs x (by omega)

end Kinds

/-- Settles O12: the answer is fatal exactly when the instruction raises the kind, and `Raises` has its cases kind by
kind; none is of the other two kinds. -/
theorem eachFatalKindHasItsInstructions : Obligations.EachFatalKindHasItsInstructions := by
  intro i s t running run
  simp only [ne_eq, status_fatal_iff_raises running run]
  exact ⟨raises_stackOverflow_iff, raises_stackUnderflow_iff, fun _ => raises_invalidCharacter_iff,
    fun _ => raises_memoryOutOfBounds_iff, nofun, nofun⟩

/-- Settles O24: the two cases of `Raises` for the stack. -/
theorem stackBoundsAreFatal : Obligations.StackBoundsAreFatal :=
  fun _ => ⟨fun nnn full => (Raises.call nnn full).exec_eq, fun empty => (Raises.ret empty).exec_eq⟩

/-! ## Halted states (R279) -/

/-- Settles O58: a jump whose target is its own address, and a key wait with a zero mask, have no write and leave `PC` where
it was. -/
theorem jumpToItselfAndIdleKeyWaitHalt : Obligations.JumpToItselfAndIdleKeyWaitHalt := by
  refine fun s running hpc => ⟨fun nnn word target => ?_, fun x word idle => ?_⟩
  · have self : offsetTarget nnn = s.pc := BitVec.eq_of_toNat_eq ((offsetTarget_toNat nnn).trans target.symm)
    calc step s = exec (.jump nnn) s := step_eq_exec running (Nat.succ_le_succ hpc) (word ▸ decode_jump nnn)
      _ = .next (s.applyEffect (.jumpTo (offsetTarget nnn))) := rfl
      _ = .next s := by rw [self, applyEffect_self]
  · calc step s = exec (.waitKey x) s := step_eq_exec running (Nat.succ_le_succ hpc) (word ▸ decode_misc x 0x0A#8)
      _ = .next s := exec_waitKey_none x (leastPressed_eq_none.2 idle)

end Sys2Proof.Machine
end

section
/-! The host's operations on a running block: load (O56), tick (O53), keys (O54) and framebuffer read (O55), each as one
write of the block with its frame. -/

namespace Sys2Proof.Machine

/-! ## Load (R271) -/

/-- Settles O56: the image's bytes are one write from 0x200 up, and the two other outcomes change nothing. -/
theorem loadCopiesTheImageOnce : Obligations.LoadCopiesTheImageOnce := by
  intro h image running
  rw [apply_running running]
  refine ⟨fun hc hl => ⟨fun large => ?_, fun fits => ?_⟩, fun late => ?_⟩
  · exact load_tooLarge hc hl large
  · exact ⟨h.block.loadImage image, load_fits hc hl fits,
      fun k lt => h.block.readByte_writeBytes_inside programBase k image lt,
      unchangedBut_writeBytes h.block programBase image⟩
  · exact load_tooLate image late

/-! ## Timer tick (R274) -/

theorem tickTimer_toNat (t : Byte) : (tickTimer t).toNat = t.toNat - 1 := by
  unfold tickTimer
  split <;> bv_omega

/-- Settles O53: one write of each timer, of the value below it or of zero. -/
theorem tickCountsTimersDown : Obligations.TickCountsTimersDown :=
  fun h running => ⟨h.block.tick, apply_running running .tick, tickTimer_toNat _, tickTimer_toNat _,
    (unchangedBut_setDT h.block _).trans (unchangedBut_setST _ _)⟩

/-! ## Keys (R273) -/

theorem unchangedBut_setKeys (s : State) (m : BitVec 16) : UnchangedBut [.keys] s (s.setKeys m) := by
  intro p hp
  cases p with
  | keys => exact absurd (List.mem_singleton_self _) hp
  | _ => rfl

/-- Settles O54: each operation is one write of the mask, known bit by bit, and an index above 15 has no move. -/
theorem keyOperationsWriteTheMask : Obligations.KeyOperationsWriteTheMask := by
  refine fun h running => ⟨fun k lt => ⟨⟨h.block.setPressed ⟨k, lt⟩, ?_, ?_, ?_⟩, ⟨h.block.release ⟨k, lt⟩, ?_, ?_, ?_⟩⟩,
    fun k above => ⟨?_, ?_⟩⟩
  · rw [apply_running running]; exact key_inside lt _
  · exact fun j => getLsbD_setPressed h.block j ⟨k, lt⟩
  · exact unchangedBut_setKeys h.block _
  · rw [apply_running running]; exact key_inside lt _
  · exact fun j => getLsbD_release h.block j ⟨k, lt⟩
  · exact unchangedBut_setKeys h.block _
  · rw [apply_running running]; exact key_outside above _
  · rw [apply_running running]; exact key_outside above _

/-! ## Framebuffer read (R275) -/

theorem unchangedBut_setPrev (s : State) (fb : Vector PixelRow 32) : UnchangedBut [.snapshot] s (s.setPrev fb) := by
  intro p hp
  cases p with
  | snapshot => exact absurd (List.mem_singleton_self _) hp
  | _ => rfl

/-- What a framebuffer read answers on a running block. -/
theorem apply_readFrame {h : Session} (running : h.block.status = .running) :
    h.apply .readFrame = .next ({ h with block := h.block.afterFrameRead }, .frame h.block.frame) :=
  apply_running running .readFrame

/-- Settles O55: without `PERSIST` the read gives the bitmap and leaves the block, with it the bitmap becomes the
snapshot. -/
theorem frameReadKeepsTheRawBitmap : Obligations.FrameReadKeepsTheRawBitmap := by
  intro h running
  rw [apply_readFrame running]
  unfold State.frame State.afterFrameRead
  refine ⟨fun raw => ?_, fun persist => ?_⟩
  · simp only [raw, Bool.false_eq_true, if_false]
  · rw [if_pos persist, if_pos persist]
    exact ⟨_, _, rfl, fun r => Vector.getElem_zipWith r.isLt, rfl, unchangedBut_setPrev h.block _⟩

end Sys2Proof.Machine
end

section
/-! Reset: what construction leaves (O13, O16), and the first cycle of a launched program (O57). -/

namespace Sys2Proof.Machine

/-! ## Construction (R290, R291) -/

/-- Memory lists nothing after construction, so every byte is its reset contents (R35, R291). -/
theorem readByte_construct (c : Config) (a : Nat) : (State.construct c).readByte a = Memory.unlisted c a := rfl

theorem pc_construct (c : Config) : (State.construct c).pc = 0x200 := rfl

theorem keys_construct (c : Config) : (State.construct c).keys = 0 := rfl

theorem reg_construct (c : Config) (r : Reg) : (State.construct c).reg r = 0 := Vector.getElem_replicate r.isLt

theorem stack_construct (c : Config) (k : Fin 16) : (State.construct c).stack[k.val] = 0 :=
  Vector.getElem_replicate k.isLt

theorem fb_construct (c : Config) (r : Fin 32) : (State.construct c).fb[r.val] = 0 := Vector.getElem_replicate r.isLt

theorem prev_construct (c : Config) (r : Fin 32) : (State.construct c).prev[r.val] = 0 :=
  Vector.getElem_replicate r.isLt

theorem State.Inv.construct {c : Config} (font : c.ok) : (State.construct c).Inv where
  memory := Memory.wf_nil c
  font := font
  pc := by rw [pc_construct]; decide
  slots k := by rw [stack_construct]; decide
  oneKey j _ hj _ := by simp [keys_construct] at hj

/-- Settles O13: no memory is listed, no slot is used and no key is pressed; the decided font lies at 0x000. -/
theorem constructionMeetsTheInvariant : Obligations.ConstructionMeetsTheInvariant :=
  ⟨fun _ font => .construct font, .construct (by decide)⟩

/-- Settles O16: the scalar parts are what construction writes, the vectors are zero throughout, and an unlisted byte is
the font's or zero. -/
theorem constructionLeavesResetValues : Obligations.ConstructionLeavesResetValues :=
  fun c _ => ⟨rfl, rfl, rfl, rfl, rfl, reg_construct c, rfl, rfl, rfl, rfl, stack_construct c,
    fun r => ⟨fb_construct c r, prev_construct c r⟩,
    fun h j => (readByte_construct c _).trans (Memory.unlisted_font c h.isLt j.isLt),
    fun a outside => (readByte_construct c a).trans (Memory.unlisted_outside_font c outside)⟩

/-! ## The start of a run (R292 to R294) -/

/-- A launch is one copy of an image that fits into the block just constructed (R271, R294). -/
theorem launched_iff {c : Config} {image : List Byte} {h : Session} :
    Launched c image h ↔
      image.length ≤ programMax ∧ h = ⟨(State.construct c).loadImage image, false, true⟩ := by
  have load : (Session.construct c).apply (.load image) = (Session.construct c).load image := apply_running rfl _
  unfold Launched
  rw [load]
  by_cases fits : image.length ≤ programMax
  · rw [load_fits rfl rfl fits]
    simp [fits, Session.construct, eq_comm]
  · rw [load_tooLarge rfl rfl (Nat.lt_of_not_le fits)]
    simp [fits]

theorem loadImage_pc (s : State) (bytes : List Byte) : (s.loadImage bytes).pc = s.pc := rfl

/-- Right after a load at the entry point the fetched word is the image's first two bytes, big-endian (R55, R292). -/
theorem fetchWord_loadImage {s : State} (entry : s.pc = 0x200) (hi lo : Byte) (rest : List Byte) :
    (s.loadImage (hi :: lo :: rest)).fetchWord = hi ++ lo := by
  have pc : (s.loadImage (hi :: lo :: rest)).pc.toNat = programBase := by rw [loadImage_pc, entry]; rfl
  have first : (s.loadImage (hi :: lo :: rest)).readByte programBase = hi :=
    s.readByte_writeBytes_inside programBase 0 (hi :: lo :: rest) (by simp)
  have second : (s.loadImage (hi :: lo :: rest)).readByte (programBase + 1) = lo :=
    s.readByte_writeBytes_inside programBase 1 (hi :: lo :: rest) (by simp)
  rw [State.fetchWord, pc, first, second]

/-- Settles O57: a load moves neither `PC` nor the status, so the first cycle fetches the image's first word at
0x200. -/
theorem launchedProgramStartsAtItsFirstWord : Obligations.LaunchedProgramStartsAtItsFirstWord := by
  intro c hi lo rest h i launched decodes
  obtain ⟨-, rfl⟩ := launched_iff.1 launched
  have pc : ((State.construct c).loadImage (hi :: lo :: rest)).pc = 0x200 := by rw [loadImage_pc, pc_construct]
  have inside : ((State.construct c).loadImage (hi :: lo :: rest)).pc.toNat + 2 ≤ memSize := by rw [pc]; decide
  have word : decode ((State.construct c).loadImage (hi :: lo :: rest)).fetchWord = some i := by
    rw [fetchWord_loadImage (pc_construct c), decodes]
  exact ⟨pc, step_eq_exec rfl inside word⟩

end Sys2Proof.Machine
end
